-- ==== Sys2Proof/Word.lean ====
section
/-! DEFINITION. The word types of the core. Every value is unsigned (R17); a register, a memory byte, an address
immediate and an instruction word are bits, a memory address is a natural number (R41). -/

namespace Sys2Proof

/-- A memory byte or a general register (R7, R41). -/
abbrev Byte := BitVec 8

/-- A 16-bit value: an instruction word, the program counter, a stack slot (R9, R10, R12). -/
abbrev Word := BitVec 16

/-- A 4-bit field of an instruction word (R53). -/
abbrev Nibble := BitVec 4

/-- The 12-bit address immediate `nnn` (R53). -/
abbrev Addr12 := BitVec 12

/-- The number of a general register; every value 0 to 15 is legal (R55). -/
abbrev RegIndex := Fin 16

end Sys2Proof
end

