-- ==== Sys2Proof/Syntax.lean ====
section
/-! DEFINITION. The instruction set (R2): one constructor per row of spec/opcode_table.json. Operands are typed by the
width of the field that holds them, so a term that names a register or an address the encoding lacks cannot be
written (R55). -/

namespace Sys2Proof

inductive Instr where
  /-- `HALT`, word 0x0000 (R71). -/
  | halt
  /-- `RET`, word 0x00EE (R72). -/
  | ret
  /-- `CALL nnn`, word 0x2nnn: `nnn` is an absolute address (R73). -/
  | call (nnn : Addr12)
  /-- `ADD Vx, Vy`, word 0x8xy4: `x` is the destination and first source (R75). -/
  | add (x y : RegIndex)
  deriving DecidableEq, Repr

end Sys2Proof
end

