-- ==== Sys2Proof/WellFormed.lean ====
section
/-! DEFINITION. Well-formedness. `Instr` carries it in its types; what can be ill-formed is an instruction as it is
WRITTEN, with operand numbers not yet checked to fit their fields (R55, R60). -/

namespace Sys2Proof

/-- An instruction with plain numbers for operands, before any check that they fit. -/
inductive SourceInstr where
  | halt
  | ret
  | call (addr : Nat)
  | add (x y : Nat)
  deriving DecidableEq, Repr

/-- The operands fit their fields: a CALL address is in 0x000 to 0xFFF, a register number in 0 to 15 (R55, R60). -/
def SourceInstr.wellFormed : SourceInstr → Bool
  | .halt => true
  | .ret => true
  | .call addr => decide (addr ≤ 0xFFF)
  | .add x y => decide (x ≤ 15) && decide (y ≤ 15)

/-- The instruction a well-formed source instruction stands for; an ill-formed one stands for none (R60: "the
assembler refuses it"). -/
def SourceInstr.toInstr : SourceInstr → Option Instr
  | .halt => some .halt
  | .ret => some .ret
  | .call addr => if addr ≤ 0xFFF then some (.call (BitVec.ofNat 12 addr)) else none
  | .add x y => if h : x < 16 ∧ y < 16 then some (.add ⟨x, h.1⟩ ⟨y, h.2⟩) else none

/-- An instruction's operands as plain numbers. -/
def Instr.toSource : Instr → SourceInstr
  | .halt => .halt
  | .ret => .ret
  | .call nnn => .call nnn.toNat
  | .add x y => .add x.val y.val

/-- An instruction is well-formed when its operands fit their fields; its types make it so
(`Laws.wellFormed_all`). -/
def Instr.wellFormed (i : Instr) : Bool := i.toSource.wellFormed

end Sys2Proof
end

