-- ==== Sys2Proof/Decode.lean ====
section
/-! DEFINITION. From bits to instructions and back: the fields of a word (R53, R54), the opcode map (R56), the decoder
(R62, R67, R68), the encoder (R60), the byte order of a word (R42). -/

namespace Sys2Proof

/-- `c = op[15:12]`, the major opcode nibble (R53). -/
def fieldC (op : Word) : Nibble := op.extractLsb' 12 4

/-- `x = op[11:8]` (R53). -/
def fieldX (op : Word) : Nibble := op.extractLsb' 8 4

/-- `y = op[7:4]` (R53). -/
def fieldY (op : Word) : Nibble := op.extractLsb' 4 4

/-- `d = op[3:0]`, the minor opcode nibble (R53). -/
def fieldD (op : Word) : Nibble := op.extractLsb' 0 4

/-- `nnn = op[11:0]`, the address immediate (R53). -/
def fieldNNN (op : Word) : Addr12 := op.extractLsb' 0 12

/-- A register operand: the number its field holds (R55). -/
def regOfNibble (n : Nibble) : RegIndex := n.toFin

/-- The field that names a register (R55). -/
def nibbleOfReg (r : RegIndex) : Nibble := BitVec.ofFin r

/-- The word of two bytes, high byte first (R42). -/
def wordOfBytes (hi lo : Byte) : Word := hi ++ lo

/-- Bits 15 to 8, the byte at the lower address (R42). -/
def highByte (op : Word) : Byte := op.extractLsb' 8 8

/-- Bits 7 to 0, the byte at the higher address (R42). -/
def lowByte (op : Word) : Byte := op.extractLsb' 0 8

/-- Why bits decode to no instruction. -/
inductive DecodeError where
  /-- The word selects no row of the opcode map (R58). -/
  | unimplementedOpcode (op : Word)
  /-- Fewer than two bytes are left: there is no whole word (R59). -/
  | truncated
  deriving DecidableEq, Repr

/-- The decoder: the nibbles of the word against the four patterns of R56. It looks at all 16 bits for HALT and RET,
at `c` for CALL, at `c` and `d` for ADD (R57). -/
def decodeWord (op : Word) : Except DecodeError Instr :=
  if fieldC op = 0x0#4 ∧ fieldX op = 0x0#4 ∧ fieldY op = 0x0#4 ∧ fieldD op = 0x0#4 then .ok .halt
  else if fieldC op = 0x0#4 ∧ fieldX op = 0x0#4 ∧ fieldY op = 0xE#4 ∧ fieldD op = 0xE#4 then .ok .ret
  else if fieldC op = 0x2#4 then .ok (.call (fieldNNN op))
  else if fieldC op = 0x8#4 ∧ fieldD op = 0x4#4 then .ok (.add (regOfNibble (fieldX op)) (regOfNibble (fieldY op)))
  else .error (.unimplementedOpcode op)

/-- The first instruction of a byte sequence and the bytes after it; every instruction is two bytes (R59). -/
def decodeBytes : List Byte → Except DecodeError (Instr × List Byte)
  | hi :: lo :: rest =>
    match decodeWord (wordOfBytes hi lo) with
    | .ok i => .ok (i, rest)
    | .error e => .error e
  | _ => .error .truncated

/-- The encoder: the word of an instruction, fields in the order `c`, `x`, `y`, `d` (R53, R60). -/
def encode : Instr → Word
  | .halt => 0x0000#16
  | .ret => 0x00EE#16
  | .call nnn => 0x2#4 ++ nnn
  | .add x y => 0x8#4 ++ nibbleOfReg x ++ nibbleOfReg y ++ 0x4#4

/-- The two bytes of an instruction as memory holds them (R42). -/
def encodeBytes (i : Instr) : List Byte := [highByte (encode i), lowByte (encode i)]

/-- One row of the opcode map (R56): a word selects it when `op AND mask = pattern`. -/
structure OpcodeRow where
  pattern : Word
  mask : Word
  deriving DecidableEq, Repr

/-- `op AND mask = match` (R56). -/
def OpcodeRow.selects (r : OpcodeRow) (op : Word) : Bool := decide (op &&& r.mask = r.pattern)

/-- The row of HALT (R56). -/
def rowHalt : OpcodeRow := { pattern := 0x0000#16, mask := 0xFFFF#16 }

/-- The row of RET (R56). -/
def rowRet : OpcodeRow := { pattern := 0x00EE#16, mask := 0xFFFF#16 }

/-- The row of CALL (R56). -/
def rowCall : OpcodeRow := { pattern := 0x2000#16, mask := 0xF000#16 }

/-- The row of ADD (R56). -/
def rowAdd : OpcodeRow := { pattern := 0x8004#16, mask := 0xF00F#16 }

/-- The complete map of the implemented instructions, in the order of R56. The decoder does not use it: that it
agrees with the decoder is a statement. -/
def opcodeTable : List OpcodeRow := [rowHalt, rowRet, rowCall, rowAdd]

/-- The row of an instruction. -/
def Instr.row : Instr → OpcodeRow
  | .halt => rowHalt
  | .ret => rowRet
  | .call _ => rowCall
  | .add _ _ => rowAdd

/-- The one word an opcode-table number stands for: its low `nbits` bits, everything above them 0 (every row of the
table is one 16-bit word, and bit 0 is the word's least significant bit). DEDUCED (log entry 10), safe. -/
def tableWord (nbits w : Nat) : Word := BitVec.ofNat 16 (w % 2 ^ nbits)

/-- The instruction the decoder reads from an opcode-table number, laid out in memory order. -/
def decodeTableWord (nbits w : Nat) : Option Instr :=
  match decodeBytes [highByte (tableWord nbits w), lowByte (tableWord nbits w)] with
  | .ok (i, _) => some i
  | .error _ => none

end Sys2Proof
end

