-- ==== Sys2Proof/Config.lean ====
section
/-! DEFINITION. The parameters of 00_scope.md section 3: the ones with one value are constants, the two the spec keeps
as parameters (R11, R13) are fields of `Config`. The spec leaves no value undefined, so there is no free value here. -/

namespace Sys2Proof

/-- `MEM_SIZE` (R6). -/
abbrev memSize : Nat := 4096

/-- `STACK_SIZE` (R9). -/
abbrev stackSize : Nat := 16

/-- `FLAG_REG`: the register VF (R8). -/
def flagReg : RegIndex := 15

/-- `INSN_WIDTH` in bytes: every instruction is one 16-bit word (R12). -/
abbrev insnBytes : Nat := 2

/-- The parameters whose value the spec asks a model to keep by name. -/
structure Config where
  /-- `PC_LIMIT_INCLUSIVE` (R13): may the advanced counter equal `MEM_SIZE`? -/
  pcLimitInclusive : Bool
  /-- `RESERVED_END` (R11): the last address of reserved memory. -/
  reservedEnd : Nat
  deriving DecidableEq, Repr

/-- The values this hardware takes (R15). UNVERIFIED (log entry 8), unsafe: the spec's choices over its source. -/
def Config.hardware : Config := { pcLimitInclusive := false, reservedEnd := 0x1FF }

/-- `PROGRAM_START = RESERVED_END + 1` (R11). -/
def Config.programStart (cfg : Config) : Nat := cfg.reservedEnd + 1

end Sys2Proof
end

