-- ==== Sys2Proof/Machine/State.lean ====
section
/-! DEFINITION. The architectural state (10_state.md), the reasons the model can stop, and the state after reset
(R40). All of it is plain data. -/

namespace Sys2Proof.Machine

/-- The kinds of a hardware fault (R77). They are values of the fault register, not stops of the model. Codes 5 to 7 of
the 3-bit field, never written, have no constructor: DEDUCED (log entry 9), safe. -/
inductive FaultKind where
  | none
  | stackOverflow
  | stackUnderflow
  | outOfBoundsAddress
  | unimplementedOpcode
  deriving DecidableEq, Repr

/-- The fault register (R33): the first fault since reset. -/
structure FaultReg where
  kind : FaultKind
  /-- The offending word for UnimplementedOpcode, 0 for every other kind and for None. -/
  opcode : Word
  deriving DecidableEq, Repr

/-- The execution state (R35). -/
inductive ExecState where
  | halted
  | running
  deriving DecidableEq, Repr

/-- Memory (R41): the bytes that differ from their reset value 0 (R40, R45), by strictly rising address, every address
below `MEM_SIZE`. `Memory.wf` says that form; an unlisted address reads as 0. DEDUCED (log
entry 6), safe. -/
abbrev Memory := List Host.Cell

structure State where
  /-- `V[0]` to `V[15]` (R25); `V[15]` is VF (R27). -/
  regs : Vector Byte 16
  /-- The program counter (R29). -/
  pc : Word
  /-- The stack pointer, the index of the next free slot, 0 to 16 (R14, R34). -/
  sp : Fin 17
  /-- The return-address stack (R36). -/
  stack : Vector Word 16
  /-- The 4096-byte memory (R41). -/
  mem : Memory
  /-- `execution_state` (R35), written `state` in the spec. -/
  execState : ExecState
  /-- The fault register (R33). -/
  fault : FaultReg
  deriving DecidableEq, Repr

/-- Why the model stops where the hardware has no behaviour to model. No step and no instruction stops so: a hardware
fault is TAKEN, as a next state with the fault register written (R82). -/
inductive Fault where
  /-- Raised by `inspect` alone: the host asked to read an address that names no byte (R41, R103). Safe: the interface
  has no such read, and nothing is made up for it. -/
  | noSuchAddress (addr : Nat)
  deriving DecidableEq, Repr

/-- Why the model gives an instruction no meaning. -/
inductive Refusal where
  /-- Raised by an arm of `exec` whose instruction has no meaning yet; no arm does. Safe: a refused step proves
  nothing about a next state. -/
  | notModelled (mnemonic : String)
  deriving DecidableEq, Repr

/-- The state right after reset (R40, R97): every field is given by the spec. -/
def State.reset : State where
  regs := Vector.replicate 16 0#8
  pc := 0x0000#16
  sp := 0
  stack := Vector.replicate 16 0#16
  mem := []
  execState := .halted
  fault := { kind := .none, opcode := 0#16 }

end Sys2Proof.Machine
end

