-- ==== Sys2Proof/Machine/Ops.lean ====
section
/-! DEFINITION. The named operations over registers, the stack, memory and the control state, and taking a fault.
Everything an instruction or a host command does to the state goes through these. -/

namespace Sys2Proof.Machine

/-! ### Codes (R33, R35, R77) -/

/-- The 3-bit code of a fault kind (R77). -/
def FaultKind.code : FaultKind → BitVec 3
  | .none => 0#3
  | .stackOverflow => 1#3
  | .stackUnderflow => 2#3
  | .outOfBoundsAddress => 3#3
  | .unimplementedOpcode => 4#3

/-- The bit that holds the execution state: Halted = 0, Running = 1 (R35). -/
def ExecState.code : ExecState → BitVec 1
  | .halted => 0#1
  | .running => 1#1

/-! ### General registers (R18, R25) -/

/-- `V[i]`. -/
def State.reg (s : State) (i : RegIndex) : Byte := s.regs[i.val]

/-- `V[i] <- b`. -/
def State.setReg (i : RegIndex) (b : Byte) (s : State) : State := { s with regs := s.regs.set i.val b }

/-! ### Control state (R29, R34, R35) -/

/-- `pc <- target`. -/
def State.setPc (target : Word) (s : State) : State := { s with pc := target }

/-- `sp <- n`. -/
def State.setSp (n : Fin 17) (s : State) : State := { s with sp := n }

/-- `state <- e`. -/
def State.setExecState (e : ExecState) (s : State) : State := { s with execState := e }

/-! ### The return-address stack (R36) -/

/-- `stack[i]`. -/
def State.slot (s : State) (i : Fin 16) : Word := s.stack[i.val]

/-- `stack[i] <- w`. -/
def State.setSlot (i : Fin 16) (w : Word) (s : State) : State := { s with stack := s.stack.set i.val w }

/-- A push: the slot at `sp` is written and `sp` goes up by one; none when all 16 slots are in use (R73, with the check
before the write: 90_conflicts.md C11). -/
def State.push (w : Word) (s : State) : Option State :=
  if h : s.sp.val < stackSize then
    some ((s.setSlot ⟨s.sp.val, h⟩ w).setSp ⟨s.sp.val + 1, Nat.succ_lt_succ h⟩)
  else none

/-- A pop: `sp` goes down by one and the slot at the new `sp` is read, not cleared; none when `sp` is 0 (R72). -/
def State.pop (s : State) : Option (Word × State) :=
  match s.sp with
  | ⟨0, _⟩ => none
  | ⟨n + 1, h⟩ =>
    some (s.slot ⟨n, Nat.lt_of_succ_lt_succ h⟩, s.setSp ⟨n, Nat.lt_of_succ_lt h⟩)

/-! ### Memory (R20, R21, R41, R42) -/

/-- The byte at an address: the one listed, and 0 where none is (R40, R45). -/
def Memory.read : Memory → Nat → Byte
  | [], _ => 0#8
  | (k, v) :: m, a => if a = k then v else Memory.read m a

/-- One byte written, in the canonical form: kept in order, and not listed when it is 0. Defined by the spec for
addresses below `MEM_SIZE` (R21): its callers check that. DEDUCED (log entry 6), safe. -/
def Memory.write (a : Nat) (b : Byte) : Memory → Memory
  | [] => if b = 0#8 then [] else [(a, b)]
  | (k, v) :: m =>
    if a < k then (if b = 0#8 then (k, v) :: m else (a, b) :: (k, v) :: m)
    else if a = k then (if b = 0#8 then m else (a, b) :: m)
    else (k, v) :: Memory.write a b m

/-- Bytes written one at a time, in address order (R98). -/
def Memory.writeBytes (a : Nat) : List Byte → Memory → Memory
  | [], m => m
  | b :: bs, m => Memory.writeBytes (a + 1) bs (Memory.write a b m)

/-- The canonical form from address `lo` on: addresses strictly rising and below `MEM_SIZE`, no byte equal to what an
unlisted address reads as. -/
def Memory.wfFrom (lo : Nat) : Memory → Bool
  | [] => true
  | (k, v) :: m => decide (lo ≤ k) && decide (k < memSize) && decide (v ≠ 0#8) && Memory.wfFrom (k + 1) m

/-- The canonical form of memory. -/
def Memory.wf (m : Memory) : Bool := Memory.wfFrom 0 m

/-- `mem[a]`; none when `a` names no byte (R41). -/
def State.readByte (s : State) (a : Nat) : Option Byte :=
  if a < memSize then some (Memory.read s.mem a) else none

/-- `MemRead(a, 2)`: two bytes, high byte first, defined when both lie in memory (R20). -/
def State.readWord (s : State) (a : Nat) : Option Word :=
  if a + 1 < memSize then some (wordOfBytes (Memory.read s.mem a) (Memory.read s.mem (a + 1))) else none

/-- Memory replaced. -/
def State.setMem (m : Memory) (s : State) : State := { s with mem := m }

/-! ### Faults (R22, R82) -/

/-- Taking a fault, `raise K(info)`: the fault register records the kind and the word, and nothing else is written. No
state is saved elsewhere, `pc` is not moved and there is no handler (R82). There is no return from a fault: the fault
register is cleared by reset alone (R85), which is `State.reset`. DEDUCED (log entry 1), safe. -/
def State.raise (k : FaultKind) (info : Word) (s : State) : State := { s with fault := { kind := k, opcode := info } }

/-- Has the core faulted since reset? The fault gate tests it (R63). -/
def State.faulted (s : State) : Bool := decide (s.fault.kind ≠ .none)

end Sys2Proof.Machine
end

