-- ==== Sys2Proof/Machine/Flags.lean ====
section
/-! DEFINITION. The arithmetic of ADD and its flag (R75, R76): the exact sum first, then its two parts. -/

namespace Sys2Proof.Machine

/-- The exact sum, 0 to 510 (R75). -/
def addSum (a b : Byte) : Nat := a.toNat + b.toNat

/-- The sum modulo 256 (R75). -/
def addResult (a b : Byte) : Byte := BitVec.ofNat 8 (addSum a b)

/-- The carry out of bit 7: 1 when the exact sum is at least 256, else 0 (R75). -/
def addCarry (a b : Byte) : Byte := if 256 ≤ addSum a b then 1#8 else 0#8

end Sys2Proof.Machine
end

