-- ==== Sys2Proof/Machine/Operands.lean ====
section
/-! DEFINITION. The operand forms of R55: a register operand of ADD and the absolute target of CALL. There is no other
addressing mode. -/

namespace Sys2Proof.Machine

/-- The value of a register operand: 8 bits, unsigned (R55). -/
def regOperand (r : RegIndex) (s : State) : Byte := s.reg r

/-- The target of a CALL: `zext_16(nnn)`, not sign-extended, not scaled, not relative to `pc` (R55). -/
def callTarget (nnn : Addr12) : Word := nnn.setWidth 16

end Sys2Proof.Machine
end

