-- ==== Sys2Proof/Machine/Arithmetic.lean ====
section
/-! DEFINITION. The arithmetic instruction (42_arithmetic.md). It continues a step: `pc` already holds `a + 2`. -/

namespace Sys2Proof.Machine

/-- ADD Vx, Vy (R75): both operands are read before any write; the value is written, then the flag, which wins when
`x` is 15 (90_conflicts.md C2). -/
def execAdd (x y : RegIndex) (s : State) : Host.Outcome State Fault Refusal :=
  let a := regOperand x s
  let b := regOperand y s
  .next ((s.setReg x (addResult a b)).setReg flagReg (addCarry a b))

end Sys2Proof.Machine
end

