-- ==== Sys2Proof/Machine/Control.lean ====
section
/-! DEFINITION. The control instructions (41_control.md). Each continues a step: `pc` already holds `a + 2`. -/

namespace Sys2Proof.Machine

/-- HALT (R71). -/
def execHalt (s : State) : Host.Outcome State Fault Refusal := .next (s.setExecState .halted)

/-- RET (R72): the popped slot is taken as it stands. -/
def execRet (s : State) : Host.Outcome State Fault Refusal :=
  match s.pop with
  | some (target, t) => .next (t.setPc target)
  | none => .next (s.raise .stackUnderflow 0#16)

/-- CALL nnn (R73): `pc`, the address of the next word, is the return address. -/
def execCall (nnn : Addr12) (s : State) : Host.Outcome State Fault Refusal :=
  match s.push s.pc with
  | some t => .next (t.setPc (callTarget nnn))
  | none => .next (s.raise .stackOverflow 0#16)

end Sys2Proof.Machine
end

