-- ==== Sys2Proof/Machine/Dispatch.lean ====
section
/-! DEFINITION. The closed match of R68: one arm per instruction. Each meaning continues a step that has passed its
checks, with `pc` at the next word: DEDUCED (log entry 2), safe. -/

namespace Sys2Proof.Machine

def exec (i : Instr) (s : State) : Host.Outcome State Fault Refusal :=
  match i with
  | .halt => Sys2Proof.Machine.execHalt s
  | .ret => Sys2Proof.Machine.execRet s
  | .call nnn => Sys2Proof.Machine.execCall nnn s
  | .add x y => Sys2Proof.Machine.execAdd x y s

end Sys2Proof.Machine
end

