-- ==== Sys2Proof/Machine/Cycle.lean ====
section
/-! DEFINITION. The step cycle (R62), over the parameters of `Config`: fault gate, Running, fetch bound, fetch, advance,
decode, dispatch. -/

namespace Sys2Proof.Machine

/-- The advance bound (R66): may the counter become `npc`? -/
def advanceInBound (cfg : Config) (npc : Nat) : Bool :=
  if cfg.pcLimitInclusive then decide (npc ≤ memSize) else decide (npc < memSize)

/-- The advance (R66): `pc <- pc + 2`, none when the bound fails. -/
def State.advance (cfg : Config) (s : State) : Option State :=
  if advanceInBound cfg (s.pc.toNat + insnBytes) then
    some (s.setPc (BitVec.ofNat 16 (s.pc.toNat + insnBytes)))
  else none

/-- Decode and dispatch (R67, R68): a word outside the opcode map raises UnimplementedOpcode with the word (R81). -/
def dispatch (op : Word) (s : State) : Host.Outcome State Fault Refusal :=
  match decodeWord op with
  | .ok i => exec i s
  | .error _ => .next (s.raise .unimplementedOpcode op)

/-- The step past the fault gate, `state` already Running (R62, R64 to R68). -/
def fetchAndDispatch (cfg : Config) (s : State) : Host.Outcome State Fault Refusal :=
  match s.readWord s.pc.toNat with
  | none => .next (s.raise .outOfBoundsAddress 0#16)
  | some op =>
    match s.advance cfg with
    | none => .next (s.raise .outOfBoundsAddress 0#16)
    | some t => dispatch op t

/-- One step (R62): a faulted core does not change (R63); any other starts Running, whatever `state` was (R70). -/
def stepWith (cfg : Config) (s : State) : Host.Outcome State Fault Refusal :=
  if s.faulted then .next s else fetchAndDispatch cfg (s.setExecState .running)

/-- Two bytes placed where the next step fetches, as a launch state (R106); where they do not both lie in memory,
nothing is placed. DESIGN CHOICE (log entry 3), safe. -/
def State.placeAtPc (op : Word) (s : State) : State :=
  if s.pc.toNat + 1 < memSize then
    s.setMem (Memory.writeBytes s.pc.toNat [highByte op, lowByte op] s.mem)
  else s

end Sys2Proof.Machine
end

