-- ==== Sys2Proof/Machine/Step.lean ====
section
/-! DEFINITION. The step of this hardware: the cycle of R62 at the parameter values of R15. -/

namespace Sys2Proof.Machine

/-- One step of this hardware. -/
def step (s : State) : Host.Outcome State Fault Refusal := stepWith Config.hardware s

/-- `s` with the instruction word of an opcode-table number stored where `step` fetches next. -/
def State.withFetchWord (s : State) (nbits w : Nat) : State := s.placeAtPc (tableWord nbits w)

end Sys2Proof.Machine
end

