-- ==== Sys2Proof/Machine/Assembler.lean ====
section
/-! DEFINITION. The assembler syntax the spec fixes (R60, R61): text to bytes, and an instruction to its text. It is
notation beside the machine: no step uses it. Text is a list of characters. -/

namespace Sys2Proof.Machine

/-! ### Characters and numbers -/

def isBlank (c : Char) : Bool := c == ' ' || c == '\t'

/-- Text without the blanks at its two ends. DESIGN CHOICE (log entry 7), unsafe: blanks are spaces and tabs, free
around a line's parts. -/
def trimBlanks (t : List Char) : List Char := (((t.dropWhile isBlank).reverse).dropWhile isBlank).reverse

/-- The value of a digit `0`–`9`, `A`–`F` (R60). -/
def regDigit (c : Char) : Option Nat :=
  if '0' ≤ c ∧ c ≤ '9' then some (c.toNat - 48)
  else if 'A' ≤ c ∧ c ≤ 'F' then some (c.toNat - 55)
  else none

/-- The value of a hexadecimal digit of a number. DESIGN CHOICE (log entry 7), unsafe: either case, which R60
leaves open. -/
def hexDigit (c : Char) : Option Nat := regDigit c.toUpper

/-- The value of hexadecimal digits, most significant first, after `acc`. -/
def hexDigits (acc : Nat) : List Char → Option Nat
  | [] => some acc
  | c :: cs =>
    match hexDigit c with
    | some v => hexDigits (16 * acc + v) cs
    | none => none

/-- `0x` and `lo` to `hi` hexadecimal digits (R60). -/
def hexLiteral (lo hi : Nat) (t : List Char) : Option Nat :=
  match t with
  | '0' :: 'x' :: ds => if lo ≤ ds.length ∧ ds.length ≤ hi then hexDigits 0 ds else none
  | _ => none

/-- A register is `V` and one digit (R60). -/
def registerName (t : List Char) : Option Nat :=
  match t with
  | ['V', c] => regDigit c
  | _ => none

/-- A label's name. DESIGN CHOICE (log entry 7), unsafe: a letter or `_`, then letters, digits and `_`, so a mnemonic's
name is one too. -/
def isLabelName (t : List Char) : Bool :=
  match t with
  | [] => false
  | c :: cs => (c.isAlpha || c == '_') && cs.all (fun k => k.isAlphanum || k == '_')

/-- Text before and after the first `sep`. -/
def splitAtChar (sep : Char) : List Char → Option (List Char × List Char)
  | [] => none
  | c :: cs =>
    if c = sep then some ([], cs)
    else
      match splitAtChar sep cs with
      | some (before, after) => some (c :: before, after)
      | none => none

/-! ### Lines -/

/-- The operand of CALL: an address or a label (R60). -/
inductive CallOperand where
  | address (a : Nat)
  | label (name : List Char)
  deriving DecidableEq, Repr

/-- What a line places: an instruction, or a data word (R60, R61). -/
inductive SourceItem where
  | halt
  | ret
  | call (target : CallOperand)
  | add (x y : Nat)
  | dw (value : Nat)
  deriving DecidableEq, Repr

/-- A line: an optional label and at most one instruction or data word (R60). -/
structure SourceLine where
  label : Option (List Char)
  item : Option SourceItem
  deriving DecidableEq, Repr

/-- Why the assembler refuses a text. -/
inductive AsmError where
  | badLine (line : List Char)
  | unknownLabel (name : List Char)
  | duplicateLabel
  | operandTooLarge (i : SourceInstr)
  deriving DecidableEq, Repr

/-- CALL's operand: `0x` and 1 to 3 digits, or a label (R60). -/
def callOperand (t : List Char) : Option CallOperand :=
  match hexLiteral 1 3 t with
  | some a => some (.address a)
  | none => if isLabelName t then some (.label t) else none

/-- ADD's operands: `Vx, Vy`, destination first, space after the comma optional (R60). Any number of blanks there:
DESIGN CHOICE (log entry 7), unsafe. -/
def addOperands (t : List Char) : Option (Nat × Nat) :=
  match splitAtChar ',' t with
  | none => none
  | some (before, after) =>
    match registerName before, registerName (after.dropWhile isBlank) with
    | some x, some y => some (x, y)
    | _, _ => none

/-- A mnemonic, in either case, and its operands (R60). The directive DW, which R60 writes in capitals, is taken in
either case too: DESIGN CHOICE (log entry 7), unsafe. -/
def sourceItem (mnemonic operands : List Char) : Option SourceItem :=
  let m := mnemonic.map Char.toUpper
  if m = ['H', 'A', 'L', 'T'] then (if operands = [] then some .halt else none)
  else if m = ['R', 'E', 'T'] then (if operands = [] then some .ret else none)
  else if m = ['C', 'A', 'L', 'L'] then (callOperand operands).map .call
  else if m = ['A', 'D', 'D'] then (addOperands operands).map (fun p => .add p.1 p.2)
  else if m = ['D', 'W'] then (hexLiteral 4 4 operands).map .dw
  else none

/-- The part of a line after its label: nothing, or a mnemonic and its operands. -/
def lineItem (t : List Char) : Option (Option SourceItem) :=
  let body := trimBlanks t
  if body = [] then some none
  else
    (sourceItem (body.takeWhile (fun c => !isBlank c)) (trimBlanks (body.dropWhile (fun c => !isBlank c)))).map some

/-- One line of text: the comment dropped, then the label, then the item (R60). -/
def parseLine (t : List Char) : Option SourceLine :=
  let code := t.takeWhile (fun c => c != ';')
  match splitAtChar ':' code with
  | none => (lineItem code).map (fun i => { label := none, item := i })
  | some (before, after) =>
    let name := trimBlanks before
    if isLabelName name then (lineItem after).map (fun i => { label := some name, item := i }) else none

/-- All lines, or the first one that is none. -/
def parseLines : List (List Char) → Except AsmError (List SourceLine)
  | [] => .ok []
  | t :: ts =>
    match parseLine t with
    | none => .error (.badLine t)
    | some l =>
      match parseLines ts with
      | .ok ls => .ok (l :: ls)
      | .error e => .error e

/-! ### Addresses and words -/

/-- The bytes a line takes: two for an instruction or a data word (R59). -/
def lineBytes (l : SourceLine) : Nat := if l.item.isSome then insnBytes else 0

/-- Each label with the address of its line, the first line at `a` (R60). -/
def labelTable (a : Nat) : List SourceLine → List (List Char × Nat)
  | [] => []
  | l :: ls =>
    match l.label with
    | some name => (name, a) :: labelTable (a + lineBytes l) ls
    | none => labelTable (a + lineBytes l) ls

/-- The address a label names. Names are compared letter for letter, case included, which R60 leaves open: DESIGN CHOICE
(log entry 7), unsafe. -/
def labelAddress (name : List Char) : List (List Char × Nat) → Option Nat
  | [] => none
  | (k, a) :: ts => if k = name then some a else labelAddress name ts

/-- The word of an instruction whose operands fit; otherwise it is refused (R60). -/
def sourceWord (i : SourceInstr) : Except AsmError Word :=
  match i.toInstr with
  | some j => .ok (encode j)
  | none => .error (.operandTooLarge i)

/-- The word of an item, a label replaced by its address (R60). -/
def itemWord (labels : List (List Char × Nat)) (item : SourceItem) : Except AsmError Word :=
  match item with
  | .halt => sourceWord .halt
  | .ret => sourceWord .ret
  | .call (.address a) => sourceWord (.call a)
  | .call (.label name) =>
    match labelAddress name labels with
    | some a => sourceWord (.call a)
    | none => .error (.unknownLabel name)
  | .add x y => sourceWord (.add x y)
  | .dw v => .ok (BitVec.ofNat 16 v)

/-- The bytes of the lines, each word big-endian (R42, R60). -/
def linesBytes (labels : List (List Char × Nat)) : List SourceLine → Except AsmError (List Byte)
  | [] => .ok []
  | l :: ls =>
    match l.item with
    | none => linesBytes labels ls
    | some item =>
      match itemWord labels item, linesBytes labels ls with
      | .ok w, .ok bs => .ok (highByte w :: lowByte w :: bs)
      | .error e, _ => .error e
      | .ok _, .error e => .error e

/-- The bytes of a text whose first line stands at `origin` (R60). DESIGN CHOICE (log entry 7), unsafe: a label named
twice is refused. -/
def assemble (origin : Nat) (text : List (List Char)) : Except AsmError (List Byte) :=
  match parseLines text with
  | .error e => .error e
  | .ok ls =>
    let labels := labelTable origin ls
    if (labels.map Prod.fst).Nodup then linesBytes labels ls else .error .duplicateLabel

/-! ### Text of an instruction -/

/-- The digit of a nibble, `0`–`9`, `A`–`F`. -/
def digitOfNibble (n : Nibble) : Char :=
  if n.toNat < 10 then Char.ofNat (48 + n.toNat) else Char.ofNat (55 + n.toNat)

/-- An instruction in the spellings of R60. -/
def render (i : Instr) : List Char :=
  match i with
  | .halt => ['H', 'A', 'L', 'T']
  | .ret => ['R', 'E', 'T']
  | .call nnn =>
    ['C', 'A', 'L', 'L', ' ', '0', 'x', digitOfNibble (nnn.extractLsb' 8 4), digitOfNibble (nnn.extractLsb' 4 4),
      digitOfNibble (nnn.extractLsb' 0 4)]
  | .add x y =>
    ['A', 'D', 'D', ' ', 'V', digitOfNibble (nibbleOfReg x), ',', ' ', 'V', digitOfNibble (nibbleOfReg y)]

end Sys2Proof.Machine
end

