-- ==== Sys2Proof/Machine/Commands.lean ====
section
/-! DEFINITION. The host interface (70_reset_and_hazards.md): the commands, their responses, and what the host can read
between commands. A command is one atomic transition of the state (R96). -/

namespace Sys2Proof.Machine

/-- What the host can ask of the core (R95). An address is a natural number, not truncated (R98, R99). -/
inductive Command where
  | reset
  | load (addr : Nat) (bytes : List Byte)
  | setProgramCounter (addr : Nat)
  | step
  | run
  | runFromStart
  deriving DecidableEq, Repr

/-- What the core answers (R95, R104). -/
inductive Response where
  | ok
  | err (kind : FaultKind) (opcode : Word)
  deriving DecidableEq, Repr

/-- The response to a command that ran steps: the fault register, or Ok while it records no fault (R100, R104). DEDUCED
(log entry 1), safe. -/
def responseOf (f : FaultReg) : Response := if f.kind = .none then .ok else .err f.kind f.opcode

/-- `Load(addr, bytes)` (R98): both checks come before any write, so a refused copy writes no byte. The error is in the
response only (R104). -/
def load (cfg : Config) (addr : Nat) (bytes : List Byte) (s : State) : State × Response :=
  if addr ≤ cfg.reservedEnd then (s, .err .outOfBoundsAddress 0#16)
  else if memSize < addr + bytes.length then (s, .err .outOfBoundsAddress 0#16)
  else (s.setMem (Memory.writeBytes addr bytes s.mem), .ok)

/-- `SetProgramCounter(addr)` (R99): any value the 16-bit register can hold, odd and out of memory included. -/
def setProgramCounter (addr : Nat) (s : State) : State × Response :=
  if 0xFFFF < addr then (s, .err .outOfBoundsAddress 0#16) else (s.setPc (BitVec.ofNat 16 addr), .ok)

/-- `Step` (R100). None only where the model's step stops, which it never does (`Laws.stepWith_next`). -/
def stepCommand (cfg : Config) (s : State) : Option (State × Response) :=
  match stepWith cfg s with
  | .next t => some (t, responseOf t.fault)
  | .fault _ => none
  | .refused _ => none

/-- The loop of `Run` (R101), watched for at most `patience` steps: none when it has not responded by then. The
hardware has no such limit (R109): a Run that never responds is none for every `patience`. DESIGN CHOICE (log entry 4),
safe. -/
def runLoop (cfg : Config) : Nat → State → Option (State × Response)
  | 0, _ => none
  | patience + 1, s =>
    match stepCommand cfg s with
    | none => none
    | some (t, .err k op) => some (t, .err k op)
    | some (t, .ok) => if t.execState = .halted then some (t, .ok) else runLoop cfg patience t

/-- `Run` (R101): a faulted core does not change and answers its fault. -/
def run (cfg : Config) (patience : Nat) (s : State) : Option (State × Response) :=
  if s.faulted then some (s, responseOf s.fault) else runLoop cfg patience (s.setExecState .running)

/-- `RunFromStart` (R102): `SetProgramCounter(PROGRAM_START)`, then `Run`. It cannot be refused at this hardware's
values; where a `Config` makes it, the refusal is the response: DESIGN CHOICE (log entry 11), safe. -/
def runFromStart (cfg : Config) (patience : Nat) (s : State) : Option (State × Response) :=
  match setProgramCounter cfg.programStart s with
  | (t, .ok) => run cfg patience t
  | (t, .err k op) => some (t, .err k op)

/-- One command: the state after it and the response, or none for a Run that has not responded within `patience`
steps. `Reset` is `State.reset` from every state (R97). -/
def command (cfg : Config) (patience : Nat) (c : Command) (s : State) : Option (State × Response) :=
  match c with
  | .reset => some (State.reset, .ok)
  | .load addr bytes => some (load cfg addr bytes s)
  | .setProgramCounter addr => some (setProgramCounter addr s)
  | .step => stepCommand cfg s
  | .run => run cfg patience s
  | .runFromStart => runFromStart cfg patience s

/-- A sequence of commands, each complete before the next is accepted (R96): the last state and every response. -/
def session (cfg : Config) (patience : Nat) : List Command → State → Option (State × List Response)
  | [], s => some (s, [])
  | c :: cs, s =>
    match command cfg patience c s with
    | none => none
    | some (t, r) =>
      match session cfg patience cs t with
      | none => none
      | some (u, rs) => some (u, r :: rs)

/-- What the host can read between commands (R103). -/
inductive Query where
  | reg (i : RegIndex)
  | mem (addr : Nat)
  | pc
  | sp
  | slot (i : Fin 16)
  | execState
  | faultKind
  | faultOpcode
  deriving DecidableEq, Repr

/-- An inspection read (R103), as the number the port shows: kinds and the execution state by their codes (R35, R77). It
changes nothing. An address that names no byte cannot be read: DESIGN CHOICE (log entry 5), safe. -/
def inspect (q : Query) (s : State) : Except Fault Nat :=
  match q with
  | .reg i => .ok (s.reg i).toNat
  | .mem addr =>
    match s.readByte addr with
    | some b => .ok b.toNat
    | none => .error (.noSuchAddress addr)
  | .pc => .ok s.pc.toNat
  | .sp => .ok s.sp.val
  | .slot i => .ok (s.slot i).toNat
  | .execState => .ok s.execState.code.toNat
  | .faultKind => .ok s.fault.kind.code.toNat
  | .faultOpcode => .ok s.fault.opcode.toNat

end Sys2Proof.Machine
end

