-- ==== Sys2Proof/Safety.lean ====
section
/-! DEFINITION. What claims are made of: launch states and the invariants of a run, the states the host can reach, what
a step executes, what "memory is unchanged" means, how a run may end. -/

namespace Sys2Proof.Machine

/-- A launch state (R106), less what the types already say (`sp` in 0 to 16, a kind in 0 to 4): the fault register
holds a word for UnimplementedOpcode alone (R33), and memory is in its canonical form. -/
abbrev State.launchOk (s : State) : Prop :=
  Memory.wf s.mem = true ∧ (s.fault.kind ≠ .unimplementedOpcode → s.fault.opcode = 0#16)

/-- Every address the machine holds names a byte of memory: `pc` and all 16 stack slots. -/
abbrev State.addressesInMemory (s : State) : Prop :=
  s.pc.toNat < memSize ∧ ∀ i : Fin 16, (s.slot i).toNat < memSize

/-- Every byte of reserved memory is 0 (R46). -/
abbrev State.reservedZero (cfg : Config) (s : State) : Prop :=
  ∀ a, a ≤ cfg.reservedEnd → Memory.read s.mem a = 0#8

/-- The host can bring the core from reset to this state by commands (R95, R107). -/
inductive Reachable (cfg : Config) : State → Prop where
  | reset : Reachable cfg State.reset
  | command {s t : State} {patience : Nat} {c : Command} {r : Response} :
      Reachable cfg s → command cfg patience c s = some (t, r) → Reachable cfg t

/-- A step from `s` dispatches the word `op`: the fault gate, the fetch and the advance all pass (R63 to R66). -/
abbrev State.fetches (cfg : Config) (s : State) (op : Word) : Prop :=
  s.faulted = false ∧ s.readWord s.pc.toNat = some op ∧ advanceInBound cfg (s.pc.toNat + insnBytes) = true

/-- `s` as its instruction sees it: Running, with `pc` at the next word (R62, R110). -/
def State.atDispatch (s : State) : State :=
  (s.setExecState .running).setPc (BitVec.ofNat 16 (s.pc.toNat + insnBytes))

/-- Every byte reads as before. -/
abbrev State.sameMemory (s t : State) : Prop := ∀ a, t.readByte a = s.readByte a

/-- Every general register but those listed reads as before. -/
abbrev State.sameRegsBut (written : List RegIndex) (s t : State) : Prop :=
  ∀ i, i ∉ written → t.reg i = s.reg i

/-- Every stack slot but those listed reads as before. -/
abbrev State.sameSlotsBut (written : List (Fin 16)) (s t : State) : Prop :=
  ∀ i, i ∉ written → t.slot i = s.slot i

/-- Every field holds the value the table of R40 gives it. -/
abbrev State.atResetValues (s : State) : Prop :=
  (∀ i, s.reg i = 0#8) ∧ s.pc = 0x0000#16 ∧ s.sp = 0 ∧ (∀ i, s.slot i = 0x0000#16) ∧
    (∀ a, a < memSize → s.readByte a = some 0x00#8) ∧ s.execState = .halted ∧ s.fault.kind = .none ∧
    s.fault.opcode = 0x0000#16

/-- Instructions run one after another, each on the state the one before left. -/
def execSeq : List Instr → State → Host.Outcome State Fault Refusal
  | [], s => .next s
  | i :: is, s =>
    match exec i s with
    | .next t => execSeq is t
    | .fault r => .fault r
    | .refused r => .refused r

/-- The end of a good run (R108). It says nothing of the stack, `pc`, memory or a register. -/
abbrev State.goodEnd (s : State) : Prop := s.execState = .halted ∧ s.fault.kind = .none

/-- The pending return addresses and then `pc` (R109). -/
def State.configuration (s : State) : List Nat := (s.stack.toList.take s.sp.val).map BitVec.toNat ++ [s.pc.toNat]

/-- The order of R109: lexicographic, the end of a sequence counting as larger than any number. -/
def configurationLt : List Nat → List Nat → Bool
  | [], _ => false
  | _ :: _, [] => true
  | a :: as, b :: bs => decide (a < b) || (decide (a = b) && configurationLt as bs)

end Sys2Proof.Machine
end

