-- ==== Sys2Proof/Certificates/Slice0/Obligations.lean ====
section
/-! DEFINITION. The statements for the provers. Each docstring names the rule of spec/ it formalises. -/

open Sys2Proof Sys2Proof.Machine

/-! ### Reset -/

/-- R40: the reset values of every piece of state. -/
def Obligations.ResetLeavesTheSpecifiedState : Prop := State.reset.atResetValues

/-- R97: Reset answers Ok and leaves every field at its reset value, from every state; it is the only command that
clears the fault register; the fetch after it, by Step or by Run, reads the HALT at address 0. -/
def Obligations.ResetCommandRestoresEveryField : Prop :=
  (∀ (s : State) (n : Nat), ∃ t, command Config.hardware n .reset s = some (t, .ok) ∧ t.atResetValues) ∧
  (∀ (s t : State) (n : Nat) (c : Command) (r : Response), c ≠ .reset → s.fault.kind ≠ .none →
    command Config.hardware n c s = some (t, r) → t.fault = s.fault) ∧
  (∀ n : Nat, ∃ t, step State.reset = .next t ∧ t.pc = 2#16 ∧ t.execState = .halted ∧
    command Config.hardware n .step State.reset = some (t, .ok) ∧
    ∃ m, command Config.hardware m .run State.reset = some (t, .ok))

/-! ### Encoding -/

/-- R54: the fields of a word are the nibbles of its two bytes, `c` and `x` from the byte at the lower address, and
`nnn` is `x`, `y`, `d` together. -/
def Obligations.FieldsAreTheNibblesOfTheBytes : Prop :=
  (∀ hi lo : Byte,
    (fieldC (wordOfBytes hi lo)).toNat = hi.toNat / 16 ∧ (fieldX (wordOfBytes hi lo)).toNat = hi.toNat % 16 ∧
    (fieldY (wordOfBytes hi lo)).toNat = lo.toNat / 16 ∧ (fieldD (wordOfBytes hi lo)).toNat = lo.toNat % 16) ∧
  (∀ op : Word,
    op.toNat = ((fieldC op).toNat * 16 + (fieldX op).toNat) * 256 + (fieldY op).toNat * 16 + (fieldD op).toNat ∧
    (fieldNNN op).toNat = (fieldX op).toNat * 256 + (fieldY op).toNat * 16 + (fieldD op).toNat)

/-- R56: the decoder is the opcode map: a word is an instruction exactly when it selects its row, with the operands
its fields hold, and no instruction when it selects none. -/
def Obligations.DecodeFollowsTheOpcodeMap : Prop :=
  ∀ op : Word,
    (decodeWord op = .ok .halt ↔ op &&& 0xFFFF#16 = 0x0000#16) ∧
    (decodeWord op = .ok .ret ↔ op &&& 0xFFFF#16 = 0x00EE#16) ∧
    (∀ nnn, decodeWord op = .ok (.call nnn) ↔ op &&& 0xF000#16 = 0x2000#16 ∧ nnn = fieldNNN op) ∧
    (∀ x y, decodeWord op = .ok (.add x y) ↔
      op &&& 0xF00F#16 = 0x8004#16 ∧ x.val = (fieldX op).toNat ∧ y.val = (fieldY op).toNat) ∧
    (decodeWord op = .error (.unimplementedOpcode op) ↔ ∀ r ∈ opcodeTable, r.selects op = false)

/-- What the spec derives from the opcode map (its "[derived]" sentences in R56, R57 and R58): the rows cover 1, 1,
4096 and 256 words of the 65536 and 61182 select none; no word selects two rows; the decoder looks at all 16 bits for
HALT and RET, at `c` alone for CALL, at `c` and `d` for ADD; which words are unimplemented. -/
def Obligations.OpcodeRowsAreDisjointAndCounted : Prop :=
  opcodeTable.map (fun r => Set.ncard {op | r.selects op = true}) = [1, 1, 4096, 256] ∧
  Set.ncard {op | ∀ r ∈ opcodeTable, r.selects op = false} = 61182 ∧
  (∀ (op : Word) (r q : OpcodeRow), r ∈ opcodeTable → q ∈ opcodeTable → r.selects op = true → q.selects op = true →
    r = q) ∧
  (∀ op : Word,
    (decodeWord op = .ok .halt ↔ op = 0x0000#16) ∧ (decodeWord op = .ok .ret ↔ op = 0x00EE#16) ∧
    ((∃ nnn, decodeWord op = .ok (.call nnn)) ↔ fieldC op = 0x2#4) ∧
    ((∃ x y, decodeWord op = .ok (.add x y)) ↔ fieldC op = 0x8#4 ∧ fieldD op = 0x4#4) ∧
    (decodeWord op = .error (.unimplementedOpcode op) ↔
      fieldC op ∈ [1#4, 3#4, 4#4, 5#4, 6#4, 7#4, 9#4, 0xA#4, 0xB#4, 0xC#4, 0xD#4, 0xE#4, 0xF#4] ∨
      (fieldC op = 0#4 ∧ op ≠ 0x0000#16 ∧ op ≠ 0x00EE#16) ∨ (fieldC op = 8#4 ∧ fieldD op ≠ 4#4)))

/-- R53, R55, R59: decoding an encoded instruction gives it back with every operand, and leaves the bytes after it. -/
def Obligations.DecodeOfEncodeIsTheInstruction : Prop :=
  ∀ i : Instr, decodeWord (encode i) = .ok i ∧ ∀ rest, decodeBytes (encodeBytes i ++ rest) = .ok (i, rest)

/-- R56, R57: a word that is an instruction is that instruction's only word. -/
def Obligations.EncodeOfDecodeIsTheWord : Prop :=
  ∀ (op : Word) (i : Instr), decodeWord op = .ok i → encode i = op

/-- R56: some words, written out from the opcode map, decode to the instructions they stand for. -/
def Obligations.WrittenOutWordsDecode : Prop :=
  decodeWord 0x0000#16 = .ok .halt ∧ decodeWord 0x00EE#16 = .ok .ret ∧ decodeWord 0x2300#16 = .ok (.call 0x300#12) ∧
  decodeWord 0x2FFF#16 = .ok (.call 0xFFF#12) ∧ decodeWord 0x8E34#16 = .ok (.add 14 3) ∧
  decodeWord 0x8015#16 = .error (.unimplementedOpcode 0x8015#16)

/-- The words the assembler syntax gives (R60, the spec's decision D15): `CALL a` is `0x2000 | a`, `ADD Vx, Vy` is
`0x8000 | x << 8 | y << 4 | 4`. -/
def Obligations.EncodeFollowsTheAssemblerFormulas : Prop :=
  encode .halt = 0x0000#16 ∧ encode .ret = 0x00EE#16 ∧
  (∀ nnn : Addr12, encode (.call nnn) = 0x2000#16 ||| nnn.setWidth 16) ∧
  (∀ x y : RegIndex,
    encode (.add x y) = 0x8000#16 ||| BitVec.ofNat 16 x.val <<< 8 ||| BitVec.ofNat 16 y.val <<< 4 ||| 4#16)

/-- R81: a word that selects no row of the opcode map is unimplemented, any other is an instruction, and a step that dispatches an
unimplemented word raises UnimplementedOpcode with the word itself, `pc` at the next word and nothing else changed. -/
def Obligations.UnimplementedWordsFault : Prop :=
  (∀ op : Word,
    if ∀ r ∈ opcodeTable, r.selects op = false then decodeWord op = .error (.unimplementedOpcode op)
    else ∃ i, decodeWord op = .ok i) ∧
  (∀ (s : State) (op : Word), s.fetches Config.hardware op → decodeWord op = .error (.unimplementedOpcode op) →
    step s = .next { s with
      execState := .running, pc := BitVec.ofNat 16 (s.pc.toNat + 2),
      fault := { kind := .unimplementedOpcode, opcode := op } })

/-! ### Memory and fetch -/

/-- The model's memory form (log entry 6): two memories in it that read alike are the same data. -/
def Obligations.EqualMemoriesAreEqualData : Prop :=
  ∀ m m' : Memory, Memory.wf m = true → Memory.wf m' = true → (∀ a, Memory.read m a = Memory.read m' a) → m = m'

/-- R65: the fetched word is the two bytes at `pc`, high byte first; the fetch is the step's only memory access, so a
step whose memory differs at other addresses goes the same way, and memory is as it was. -/
def Obligations.StepReadsOnlyTheFetchedWord : Prop :=
  (∀ (s : State) (w : Word), s.readWord s.pc.toNat = some w ↔
    s.pc.toNat + 1 < 4096 ∧
      w.toNat = (Memory.read s.mem s.pc.toNat).toNat * 256 + (Memory.read s.mem (s.pc.toNat + 1)).toNat) ∧
  (∀ (s : State) (m : Memory),
    (s.fault.kind = .none → s.pc.toNat + 1 < 4096 →
      Memory.read m s.pc.toNat = Memory.read s.mem s.pc.toNat ∧
      Memory.read m (s.pc.toNat + 1) = Memory.read s.mem (s.pc.toNat + 1)) →
    ∃ t, step s = .next t ∧ t.mem = s.mem ∧ step { s with mem := m } = .next { t with mem := m })

/-- R43: a fetch at any address whose two bytes lie in memory reads them, odd or even; one whose second byte lies at
4096 or above raises OutOfBoundsAddress; a single byte needs no alignment. -/
def Obligations.FetchNeedsNoAlignment : Prop :=
  (∀ (s : State) (a : Nat), a + 1 ≤ 4095 →
    ∃ b0 b1, s.readByte a = some b0 ∧ s.readByte (a + 1) = some b1 ∧ s.readWord a = some (wordOfBytes b0 b1)) ∧
  (∀ s : State, s.fault.kind = .none → 4095 < s.pc.toNat + 1 →
    ∃ t, step s = .next t ∧ t.fault = { kind := .outOfBoundsAddress, opcode := 0#16 }) ∧
  (∀ (s : State) (addr : Nat) (b : Byte), 0x1FF < addr → addr ≤ 0xFFF → Memory.wf s.mem = true →
    ∃ t, load Config.hardware addr [b] s = (t, .ok) ∧ t.readByte addr = some b ∧ inspect (.mem addr) t = .ok b.toNat)

/-- R98: Load's two refusals write nothing; otherwise each byte stands at its address and every other byte and field
is as it was. -/
def Obligations.LoadWritesExactlyItsBytes : Prop :=
  ∀ (s : State) (addr : Nat) (bytes : List Byte) (n : Nat), Memory.wf s.mem = true →
    (addr ≤ 0x1FF ∨ 4096 < addr + bytes.length →
      command Config.hardware n (.load addr bytes) s = some (s, .err .outOfBoundsAddress 0#16)) ∧
    (0x1FF < addr → addr + bytes.length ≤ 4096 →
      ∃ m, command Config.hardware n (.load addr bytes) s = some ({ s with mem := m }, .ok) ∧ Memory.wf m = true ∧
        (∀ k b, bytes[k]? = some b → Memory.read m (addr + k) = b) ∧
        (∀ a, a < addr ∨ addr + bytes.length ≤ a → Memory.read m a = Memory.read s.mem a))

/-- R42, R51: after a Load the next fetch sees the loaded bytes, `b0 * 256 + b1`, at any address of the copy. -/
def Obligations.FetchAfterLoadSeesTheBytes : Prop :=
  ∀ (s t : State) (addr k n : Nat) (bytes : List Byte) (b0 b1 : Byte), Memory.wf s.mem = true →
    command Config.hardware n (.load addr bytes) s = some (t, .ok) → bytes[k]? = some b0 → bytes[k + 1]? = some b1 →
    ∃ w, t.readWord (addr + k) = some w ∧ w.toNat = b0.toNat * 256 + b1.toNat

/-- What the spec derives of reserved memory (R46, marked "[derived]"): from reset on, whatever the host does,
reserved memory holds 0, so a fetch in 0x000 to 0x1FE reads HALT and a fetch at 0x1FF reads 0x00 and then the byte at
0x200. -/
def Obligations.ReservedMemoryKeepsItsResetValue : Prop :=
  ∀ s : State, Reachable Config.hardware s →
    (∀ a, a ≤ 0x1FF → s.readByte a = some 0#8) ∧
    (∀ a, a ≤ 0x1FE → s.readWord a = some 0x0000#16) ∧ decodeWord 0x0000#16 = .ok .halt ∧
    (∀ b, s.readByte 0x200 = some b → s.readWord 0x1FF = some (wordOfBytes 0#8 b))

/-- R21, R41: no step writes memory. -/
def Obligations.StepNeverWritesMemory : Prop :=
  ∀ (cfg : Config) (s t : State), stepWith cfg s = .next t → t.mem = s.mem ∧ s.sameMemory t

/-! ### The step -/

/-- R62, R68: when the bytes at `pc` decode to an instruction and the checks pass, the step is that instruction on the
state made Running with `pc` at the next word. -/
def Obligations.StepRunsTheDecodedInstruction : Prop :=
  ∀ (s : State) (b0 b1 : Byte) (i : Instr), s.fault.kind = .none → s.pc.toNat + 2 < 4096 →
    s.readByte s.pc.toNat = some b0 → s.readByte (s.pc.toNat + 1) = some b1 → decodeBytes [b0, b1] = .ok (i, []) →
    i.wellFormed = true →
    step s = exec i { s with execState := .running, pc := BitVec.ofNat 16 (s.pc.toNat + 2) }

/-- R63: a step of a faulted core changes nothing and answers the fault. -/
def Obligations.FaultedCoreDoesNotStep : Prop :=
  ∀ (s : State) (n : Nat), s.fault.kind ≠ .none →
    step s = .next s ∧ command Config.hardware n .step s = some (s, .err s.fault.kind s.fault.opcode)

/-- R64: a fetch at 0xFFF or above raises OutOfBoundsAddress with `pc` kept, `state` Running and nothing else written;
at 0xFFE or below it reads a word. -/
def Obligations.FetchBoundRaisesOutOfBounds : Prop :=
  ∀ s : State, s.fault.kind = .none →
    (0xFFF ≤ s.pc.toNat →
      step s = .next { s with execState := .running, fault := { kind := .outOfBoundsAddress, opcode := 0#16 } }) ∧
    (s.pc.toNat ≤ 0xFFE → ∃ w, s.readWord s.pc.toNat = some w)

/-- R66: after the fetch the step checks `a + 2` against `MEM_SIZE`, strictly while `PC_LIMIT_INCLUSIVE` is false,
which is this hardware's value; where the check fails it raises OutOfBoundsAddress and `pc` is kept, else `pc` is at
the next word before dispatch. -/
def Obligations.AdvanceBoundRaisesOutOfBounds : Prop :=
  Config.hardware.pcLimitInclusive = false ∧
  ∀ (cfg : Config) (s : State) (op : Word), s.fault.kind = .none → s.readWord s.pc.toNat = some op →
    if (if cfg.pcLimitInclusive then s.pc.toNat + 2 ≤ 4096 else s.pc.toNat + 2 < 4096) then
      ∃ npc : Word, npc.toNat = s.pc.toNat + 2 ∧
        stepWith cfg s = dispatch op { s with execState := .running, pc := npc }
    else
      stepWith cfg s =
        .next { s with execState := .running, fault := { kind := .outOfBoundsAddress, opcode := 0#16 } }

/-- R70, its last part marked "[derived]": the step does not test `state`; after a step past the fault gate it is
Halted exactly when that step executed HALT, and Running otherwise. -/
def Obligations.HaltedExactlyAfterHalt : Prop :=
  ∀ (s t : State), s.fault.kind = .none → step s = .next t →
    (∀ e, step { s with execState := e } = .next t) ∧
    (t.execState = .halted ↔ s.fetches Config.hardware 0x0000#16) ∧
    (t.fault.kind ≠ .none → t.execState = .running)

/-- R83: the state after each kind of fault. -/
def Obligations.StateAtAFault : Prop :=
  ∀ (s t : State), s.fault.kind = .none → step s = .next t → t.fault.kind ≠ .none →
    t.execState = .running ∧ t.regs = s.regs ∧ t.sp = s.sp ∧ t.stack = s.stack ∧ t.mem = s.mem ∧
    (t.fault.kind = .outOfBoundsAddress → t.pc = s.pc ∧ t.fault.opcode = 0#16) ∧
    (t.fault.kind = .unimplementedOpcode →
      t.pc.toNat = s.pc.toNat + 2 ∧ s.readWord s.pc.toNat = some t.fault.opcode) ∧
    (t.fault.kind = .stackOverflow → t.pc.toNat = s.pc.toNat + 2 ∧ t.sp.val = 16 ∧ t.fault.opcode = 0#16) ∧
    (t.fault.kind = .stackUnderflow → t.pc.toNat = s.pc.toNat + 2 ∧ t.sp.val = 0 ∧ t.fault.opcode = 0#16)

/-- R84: the first check that fails decides the fault: the gate, the fetch bound, the advance bound, the dispatch. -/
def Obligations.FirstFailingCheckDecidesTheFault : Prop :=
  ∀ s t : State, step s = .next t →
    t.fault =
      if s.fault.kind ≠ .none then s.fault
      else if 4096 ≤ s.pc.toNat + 1 then { kind := .outOfBoundsAddress, opcode := 0#16 }
      else if 4096 ≤ s.pc.toNat + 2 then { kind := .outOfBoundsAddress, opcode := 0#16 }
      else
        match decodeWord (wordOfBytes (Memory.read s.mem s.pc.toNat) (Memory.read s.mem (s.pc.toNat + 1))) with
        | .error _ =>
          { kind := .unimplementedOpcode
            opcode := wordOfBytes (Memory.read s.mem s.pc.toNat) (Memory.read s.mem (s.pc.toNat + 1)) }
        | .ok (.call _) => if s.sp.val = 16 then { kind := .stackOverflow, opcode := 0#16 } else s.fault
        | .ok .ret => if s.sp.val = 0 then { kind := .stackUnderflow, opcode := 0#16 } else s.fault
        | .ok .halt => s.fault
        | .ok (.add _ _) => s.fault

/-- R85: a fault is sticky: Step and Run change nothing and answer it, however often; Load and SetProgramCounter still
work and do not clear it; the host still reads every field; Reset clears it. -/
def Obligations.FaultIsStickyUntilReset : Prop :=
  ∀ (s : State), s.fault.kind ≠ .none →
    (∀ k, Host.Core.run Sys2Proof.core k s = .next s) ∧
    (∀ n, command Config.hardware n .step s = some (s, .err s.fault.kind s.fault.opcode) ∧
      command Config.hardware n .run s = some (s, .err s.fault.kind s.fault.opcode)) ∧
    (∀ n c t r, c ≠ .reset → command Config.hardware n c s = some (t, r) → t.fault = s.fault) ∧
    (∀ n addr, addr ≤ 0xFFFF →
      command Config.hardware n (.setProgramCounter addr) s = some ({ s with pc := BitVec.ofNat 16 addr }, .ok)) ∧
    (∀ n addr bytes, 0x1FF < addr → addr + bytes.length ≤ 4096 →
      ∃ m, command Config.hardware n (.load addr bytes) s = some ({ s with mem := m }, .ok)) ∧
    (∀ q, (∀ a, q = .mem a → a < 4096) → ∃ v, inspect q s = .ok v) ∧
    (∀ n, ∃ t, command Config.hardware n .reset s = some (t, .ok) ∧ t.fault = { kind := .none, opcode := 0#16 })

/-- R85, and what the spec derives from it (R86 and the end of R102, both marked "[derived]"): no sequence of commands
without a Reset records a second fault or runs a step after the first; RunFromStart of a faulted core writes `pc`
alone and answers the recorded fault. -/
def Obligations.OnlyTheFirstFaultIsRecorded : Prop :=
  (∀ (cs : List Command) (n : Nat) (s t : State) (rs : List Response), s.fault.kind ≠ .none → Command.reset ∉ cs →
    session Config.hardware n cs s = some (t, rs) →
    t.fault = s.fault ∧ t.regs = s.regs ∧ t.sp = s.sp ∧ t.stack = s.stack ∧ t.execState = s.execState) ∧
  (∀ (s : State) (n : Nat), s.fault.kind ≠ .none →
    command Config.hardware n .runFromStart s = some ({ s with pc := 0x200#16 }, .err s.fault.kind s.fault.opcode))

/-- What the spec derives of `pc` (R32 and the bound in R73, marked "[derived]"): a step advances `pc` only from 0xFFE
or below, to at most 0x1000, with no reduction; a step at 0x1000 to 0xFFFF, which the host can set, faults in the
fetch; a return address is at most 0x1000, and at most 0xFFF with `PC_LIMIT_INCLUSIVE` false. -/
def Obligations.ProgramCounterNeverWraps : Prop :=
  (∀ (cfg : Config) (s : State) (op : Word), s.fetches cfg op →
    s.pc.toNat ≤ 0xFFE ∧ s.atDispatch.pc.toNat = s.pc.toNat + 2 ∧ s.pc.toNat + 2 ≤ 0x1000) ∧
  (∀ (cfg : Config) (s t : State) (nnn : Addr12) (k : Fin 16), s.fetches cfg (encode (.call nnn)) → k.val = s.sp.val →
    stepWith cfg s = .next t →
    (t.slot k).toNat ≤ 0x1000 ∧ (cfg.pcLimitInclusive = false → (t.slot k).toNat ≤ 0xFFF)) ∧
  (∀ (s : State) (addr n : Nat), 0x1000 ≤ addr → addr ≤ 0xFFFF → s.fault.kind = .none →
    ∃ t, command Config.hardware n (.setProgramCounter addr) s = some (t, .ok) ∧ t.pc.toNat = addr ∧
      step t = .next { t with execState := .running, fault := { kind := .outOfBoundsAddress, opcode := 0#16 } })

/-- R30: what `pc` holds: `a + 2` during dispatch and after HALT and ADD, `nnn` after CALL, the popped slot after RET;
the host sets it with SetProgramCounter, and RunFromStart runs from 0x200. -/
def Obligations.ProgramCounterAfterEachInstruction : Prop :=
  (∀ (s t : State) (op : Word) (i : Instr), s.fetches Config.hardware op → decodeWord op = .ok i → step s = .next t →
    s.atDispatch.pc.toNat = s.pc.toNat + 2 ∧ step s = exec i s.atDispatch ∧
    match i with
    | .halt => t.pc.toNat = s.pc.toNat + 2
    | .add _ _ => t.pc.toNat = s.pc.toNat + 2
    | .call nnn => s.sp.val < 16 → t.pc.toNat = nnn.toNat
    | .ret => ∀ k : Fin 16, k.val + 1 = s.sp.val → t.pc = s.slot k) ∧
  (∀ (s : State) (addr n : Nat), addr ≤ 0xFFFF →
    ∃ t, command Config.hardware n (.setProgramCounter addr) s = some (t, .ok) ∧ t.pc.toNat = addr) ∧
  (∀ (s : State) (n : Nat),
    command Config.hardware n .runFromStart s = command Config.hardware n .run { s with pc := 0x200#16 })

/-! ### The instructions -/

/-- R71: HALT sets `state` to Halted and nothing else; a step that fetches it also advances `pc`, whatever `state`
was; a fetch in reserved memory that holds 0 executes it; from reset one step halts with `pc = 2`. -/
def Obligations.HaltSetsHalted : Prop :=
  (∀ s : State, exec .halt s = .next { s with execState := .halted }) ∧
  (∀ s : State, s.fetches Config.hardware 0x0000#16 →
    step s = .next { s with execState := .halted, pc := BitVec.ofNat 16 (s.pc.toNat + 2) }) ∧
  (∀ s : State, s.reservedZero Config.hardware → s.fault.kind = .none → s.pc.toNat ≤ 0x1FE →
    s.fetches Config.hardware 0x0000#16) ∧
  step State.reset = .next { State.reset with execState := .halted, pc := 2#16 }

/-- R72: RET at `sp = 0` raises StackUnderflow and changes nothing else; otherwise `sp` goes down by one and `pc`
takes the slot there as it stands, the slot kept; a popped value of 0x1000 or more makes the next step fault in the
fetch; a step that fetches 0x00EE executes it. -/
def Obligations.RetPopsTheReturnAddress : Prop :=
  ∀ s : State,
    (s.fetches Config.hardware 0x00EE#16 → step s = exec .ret s.atDispatch) ∧
    (s.sp.val = 0 → exec .ret s = .next { s with fault := { kind := .stackUnderflow, opcode := 0#16 } }) ∧
    (∀ (k : Fin 16) (n : Fin 17), k.val + 1 = s.sp.val → n.val = k.val →
      exec .ret s = .next { s with sp := n, pc := s.slot k } ∧
      (s.fault.kind = .none → 0x1000 ≤ (s.slot k).toNat →
        ∃ t, step { s with sp := n, pc := s.slot k } = .next t ∧ t.pc = s.slot k ∧
          t.fault = { kind := .outOfBoundsAddress, opcode := 0#16 }))

/-- R73: CALL at `sp = 16` raises StackOverflow and changes nothing else; otherwise the slot at `sp` takes `pc`, `sp`
goes up by one and `pc` takes `nnn` zero-extended; a step that fetches 0x2nnn executes it, and the pushed value is
then `a + 2`. -/
def Obligations.CallPushesTheReturnAddress : Prop :=
  (∀ (nnn : Addr12) (s : State),
    (s.sp.val = 16 → exec (.call nnn) s = .next { s with fault := { kind := .stackOverflow, opcode := 0#16 } }) ∧
    (∀ (k : Fin 16) (n : Fin 17), k.val = s.sp.val → n.val = k.val + 1 →
      exec (.call nnn) s = .next { s with stack := s.stack.set k.val s.pc, sp := n, pc := nnn.setWidth 16 } ∧
      (nnn.setWidth 16 : Word).toNat = nnn.toNat)) ∧
  (∀ (cfg : Config) (s : State) (nnn : Addr12), s.fetches cfg (0x2000#16 ||| nnn.setWidth 16) →
    stepWith cfg s = exec (.call nnn) s.atDispatch ∧
    ∀ (t : State) (k : Fin 16), k.val = s.sp.val → stepWith cfg s = .next t → (t.slot k).toNat = s.pc.toNat + 2)

/-- R75: ADD reads both operands, writes the sum modulo 256 to `V[x]` and then the carry to VF, which wins when `x` is
15; nothing else changes; a step that fetches 0x8xy4 executes it. -/
def Obligations.AddWritesTheSumThenTheCarry : Prop :=
  (∀ (x y : RegIndex) (s : State), ∃ t, exec (.add x y) s = .next t ∧
    (x ≠ 15 → (t.reg x).toNat = ((s.reg x).toNat + (s.reg y).toNat) % 256) ∧
    t.reg 15 = (if 256 ≤ (s.reg x).toNat + (s.reg y).toNat then 1#8 else 0#8) ∧
    (∀ i, i ≠ x → i ≠ 15 → t.reg i = s.reg i) ∧ t = { s with regs := t.regs }) ∧
  (∀ (x y : RegIndex) (s : State),
    s.fetches Config.hardware (0x8000#16 ||| BitVec.ofNat 16 x.val <<< 8 ||| BitVec.ofNat 16 y.val <<< 4 ||| 4#16) →
    step s = exec (.add x y) s.atDispatch)

/-- The arithmetic laws of R76, one marked "[derived]": the carry is 1 exactly when the result is less than `V[x]`
was; the two orders of the operands compute one value and store it in different registers; the other operand is kept.
-/
def Obligations.AddArithmeticLaws : Prop :=
  ∀ (x y : RegIndex) (s t u : State), x ≠ 15 → y ≠ 15 → exec (.add x y) s = .next t → exec (.add y x) s = .next u →
    (t.reg 15 = 1#8 ↔ (t.reg x).toNat < (s.reg x).toNat) ∧ t.reg x = u.reg y ∧ t.reg 15 = u.reg 15 ∧
    (x ≠ y → t.reg y = s.reg y ∧ u.reg x = s.reg x) ∧ t.fault = s.fault

/-- R28, R111: VF can be named as either operand of ADD: read, it gives its current value; as the destination, the
value written is overwritten by the carry. -/
def Obligations.AddWithTheFlagRegisterAsOperand : Prop :=
  (∀ r : RegIndex, decodeWord (encode (.add 15 r)) = .ok (.add 15 r) ∧ decodeWord (encode (.add r 15)) = .ok (.add r 15)) ∧
  (∀ (r : RegIndex) (s : State),
    (∃ t, exec (.add 15 r) s = .next t ∧
      (t.reg 15).toNat = ((s.reg 15).toNat + (s.reg r).toNat) / 256 ∧ ∀ i, i ≠ 15 → t.reg i = s.reg i) ∧
    (r ≠ 15 → ∃ t, exec (.add r 15) s = .next t ∧
      (t.reg r).toNat = ((s.reg r).toNat + (s.reg 15).toNat) % 256 ∧
      (t.reg 15).toNat = ((s.reg r).toNat + (s.reg 15).toNat) / 256))

/-- R26: HALT, RET and CALL neither read nor write a general register; ADD reads `V[x]` and `V[y]` alone and writes
`V[x]` and `V[15]` alone; the host can read every register and no command but those that step or reset writes one. -/
def Obligations.OnlyAddTouchesGeneralRegisters : Prop :=
  (∀ (i : Instr) (s t : State) (v : Vector Byte 16), (∀ x y, i ≠ .add x y) → exec i s = .next t →
    t.regs = s.regs ∧ exec i { s with regs := v } = .next { t with regs := v }) ∧
  (∀ (x y : RegIndex) (s t u s' : State), s'.reg x = s.reg x → s'.reg y = s.reg y → exec (.add x y) s = .next t →
    exec (.add x y) s' = .next u → u.reg x = t.reg x ∧ u.reg 15 = t.reg 15 ∧ s.sameRegsBut [x, 15] t) ∧
  (∀ (s : State) (i : RegIndex), inspect (.reg i) s = .ok (s.reg i).toNat) ∧
  (∀ (s t : State) (n addr : Nat) (bytes : List Byte) (r : Response),
    (command Config.hardware n (.load addr bytes) s = some (t, r) ∨
      command Config.hardware n (.setProgramCounter addr) s = some (t, r)) → t.regs = s.regs)

/-- The frame of HALT, RET and CALL (R38, R71 to R73): HALT writes `state` alone; RET writes `pc` and `sp`, or the
fault register; CALL writes `pc`, `sp` and the slot at the old `sp`, or the fault register. No byte of memory changes.
-/
def Obligations.ControlInstructionFrames : Prop :=
  (∀ s t : State, exec .halt s = .next t →
    s.sameRegsBut [] t ∧ s.sameSlotsBut [] t ∧ s.sameMemory t ∧ t.pc = s.pc ∧ t.sp = s.sp ∧ t.fault = s.fault) ∧
  (∀ s t : State, exec .ret s = .next t →
    s.sameRegsBut [] t ∧ s.sameSlotsBut [] t ∧ s.sameMemory t ∧ t.execState = s.execState ∧
    (0 < s.sp.val → t.fault = s.fault) ∧ (s.sp.val = 0 → t.sp = s.sp ∧ t.pc = s.pc)) ∧
  (∀ (nnn : Addr12) (s t : State), exec (.call nnn) s = .next t →
    s.sameRegsBut [] t ∧ s.sameMemory t ∧ t.execState = s.execState ∧
    (∀ k : Fin 16, k.val = s.sp.val → s.sameSlotsBut [k] t ∧ t.fault = s.fault) ∧
    (s.sp.val = 16 → s.sameSlotsBut [] t ∧ t.sp = s.sp ∧ t.pc = s.pc))

/-- The frame of ADD (R38, R75): it writes `V[x]` and `V[15]` alone. No byte of memory changes. -/
def Obligations.AddFrame : Prop :=
  ∀ (x y : RegIndex) (s t : State), exec (.add x y) s = .next t →
    s.sameRegsBut [x, 15] t ∧ s.sameSlotsBut [] t ∧ s.sameMemory t ∧ t.pc = s.pc ∧ t.sp = s.sp ∧
    t.execState = s.execState ∧ t.fault = s.fault

/-- R34: `sp` stays in 0 to 16; a step moves it only by a CALL with room (up by one) or a RET with a return pending
(down by one); a CALL at 16 overflows and a RET at 0 underflows; Load and SetProgramCounter do not write it; reset
leaves it 0; the host reads it. -/
def Obligations.StackPointerMovesByCallAndRetOnly : Prop :=
  (∀ s t : State, step s = .next t → t.sp.val ≤ 16 ∧
    (t.sp ≠ s.sp →
      ∃ op, s.fetches Config.hardware op ∧
        ((∃ nnn, decodeWord op = .ok (.call nnn) ∧ s.sp.val < 16 ∧ t.sp.val = s.sp.val + 1) ∨
          (decodeWord op = .ok .ret ∧ t.sp.val + 1 = s.sp.val)))) ∧
  (∀ (s t : State) (op : Word), s.fetches Config.hardware op → step s = .next t →
    (∀ nnn, decodeWord op = .ok (.call nnn) →
      (s.sp.val < 16 → t.sp.val = s.sp.val + 1) ∧ (s.sp.val = 16 → t.fault.kind = .stackOverflow ∧ t.sp = s.sp)) ∧
    (decodeWord op = .ok .ret →
      (0 < s.sp.val → t.sp.val + 1 = s.sp.val) ∧ (s.sp.val = 0 → t.fault.kind = .stackUnderflow ∧ t.sp = s.sp))) ∧
  (∀ (s t : State) (n addr : Nat) (bytes : List Byte) (r : Response),
    (command Config.hardware n (.load addr bytes) s = some (t, r) ∨
      command Config.hardware n (.setProgramCounter addr) s = some (t, r)) → t.sp = s.sp) ∧
  State.reset.sp.val = 0 ∧ (∀ s : State, inspect .sp s = .ok s.sp.val)

/-- R110, and R74's "[derived]" sentence on the link: a RET that finds the stack as a CALL left it resumes at the word
after that CALL. -/
def Obligations.RetResumesAfterTheCall : Prop :=
  ∀ (nnn : Addr12) (s t u : State), s.sp.val < 16 → exec (.call nnn) s = .next t → u.sp = t.sp → u.stack = t.stack →
    exec .ret u = .next { u with sp := s.sp, pc := s.pc }

/-- R73, R78: calls nest until 16 returns are pending; the next one raises StackOverflow and `sp` stays 16. -/
def Obligations.SixteenCallsNestAndTheNextOverflows : Prop :=
  ∀ (targets : List Addr12) (last : Addr12) (s : State), s.sp.val + targets.length = 16 →
    ∃ t, execSeq (targets.map Instr.call) s = .next t ∧ t.sp.val = 16 ∧ t.fault = s.fault ∧
      exec (.call last) t = .next { t with fault := { kind := .stackOverflow, opcode := 0#16 } }

/-! ### The host interface -/

/-- R99: SetProgramCounter takes every value that fits 16 bits, refuses any other, and writes `pc` alone; a step at
0x1000 or above then faults in the fetch. -/
def Obligations.SetProgramCounterWritesPcAlone : Prop :=
  ∀ (s : State) (addr n : Nat),
    (0xFFFF < addr →
      command Config.hardware n (.setProgramCounter addr) s = some (s, .err .outOfBoundsAddress 0#16)) ∧
    (addr ≤ 0xFFFF → ∃ pc : Word, pc.toNat = addr ∧
      command Config.hardware n (.setProgramCounter addr) s = some ({ s with pc := pc }, .ok) ∧
      (0x1000 ≤ addr → s.fault.kind = .none → ∃ t, step { s with pc := pc } = .next t ∧
        t.fault = { kind := .outOfBoundsAddress, opcode := 0#16 }))

/-- R100: Step performs one step; it answers Ok when the step raised nothing and the fault register otherwise; on a
faulted core it changes nothing; `state` is then Halted exactly when the step executed HALT. -/
def Obligations.StepCommandAnswersTheFaultRegister : Prop :=
  ∀ (s : State) (n : Nat), ∃ t r, command Config.hardware n .step s = some (t, r) ∧ step s = .next t ∧
    (t.fault.kind = .none → r = .ok) ∧ (t.fault.kind ≠ .none → r = .err t.fault.kind t.fault.opcode) ∧
    (s.fault.kind ≠ .none → t = s) ∧
    (s.fault.kind = .none → (t.execState = .halted ↔ s.fetches Config.hardware 0x0000#16))

/-- R101: on a faulted core Run changes nothing and answers the fault; otherwise it makes `state` Running and repeats
the step, at least once, until the first step that raises a fault or executes HALT, and answers there. -/
def Obligations.RunRepeatsTheStepUntilItEnds : Prop :=
  (∀ (s : State) (n : Nat), s.fault.kind ≠ .none →
    command Config.hardware n .run s = some (s, .err s.fault.kind s.fault.opcode)) ∧
  (∀ (s t : State) (r : Response), s.fault.kind = .none →
    ((∃ n, command Config.hardware n .run s = some (t, r)) ↔
      ∃ k, Host.Core.run Sys2Proof.core (k + 1) { s with execState := .running } = .next t ∧
        (∀ j u, j ≤ k → Host.Core.run Sys2Proof.core j { s with execState := .running } = .next u →
          u.execState = .running ∧ u.fault.kind = .none) ∧
        ((t.fault.kind ≠ .none ∧ r = .err t.fault.kind t.fault.opcode) ∨
          (t.fault.kind = .none ∧ t.execState = .halted ∧ r = .ok))))

/-- R102: RunFromStart is SetProgramCounter(0x200), which is never refused, and then Run, with Run's response. -/
def Obligations.RunFromStartRunsFromProgramStart : Prop :=
  ∀ (s : State) (n : Nat), ∃ t, command Config.hardware n (.setProgramCounter 0x200) s = some (t, .ok) ∧
    t = { s with pc := 0x200#16 } ∧ command Config.hardware n .runFromStart s = command Config.hardware n .run t

/-- What the spec derives in R109 ("[derived]"): every Run responds, from every state, within some number of steps
(the model watches a Run for a number of steps: log entry 4), with either value of the advance bound. -/
def Obligations.EveryRunResponds : Prop :=
  ∀ (cfg : Config) (s : State), ∃ n t r, command cfg n .run s = some (t, r)

/-- The argument of R109 ("[derived]"): a step that ends neither in HALT nor in a fault makes the configuration, the
pending return addresses and then `pc`, larger. -/
def Obligations.StepRaisesTheConfiguration : Prop :=
  ∀ (cfg : Config) (s t : State), s.fault.kind = .none → stepWith cfg s = .next t → t.fault.kind = .none →
    t.execState = .running → configurationLt s.configuration t.configuration = true

/-- R108: a Run that responds has halted with no fault and answers Ok, or has faulted with `state` Running and answers
the fault. -/
def Obligations.RunEndsHaltedOrFaulted : Prop :=
  ∀ (cfg : Config) (s t : State) (n : Nat) (r : Response), s.fault.kind = .none →
    (command cfg n .run s = some (t, r) ∨ command Config.hardware n .runFromStart s = some (t, r)) →
    (r = .ok ∧ t.goodEnd) ∨
    (r = .err t.fault.kind t.fault.opcode ∧ t.fault.kind ≠ .none ∧ t.execState = .running)

/-- R96, R114: a command's effect and response do not depend on how long the host watches it, which is the model's own
argument (log entry 4). -/
def Obligations.PatienceDoesNotChangeAResponse : Prop :=
  ∀ (cfg : Config) (c : Command) (s : State) (n m : Nat) (a : State × Response), command cfg n c s = some a → n ≤ m →
    command cfg m c s = some a

/-- What the spec derives in R38 ("[derived]"): which command can write which field: memory by Load alone, `V`, `sp`,
`stack`, `fault` and `state` not by Load or SetProgramCounter, `pc` not by Load. -/
def Obligations.WritersOfEachField : Prop :=
  ∀ (s t : State) (n : Nat) (c : Command) (r : Response), c ≠ .reset → command Config.hardware n c s = some (t, r) →
    ((∀ addr bytes, c ≠ .load addr bytes) → t.mem = s.mem) ∧
    (∀ addr bytes, c = .load addr bytes → t = { s with mem := t.mem }) ∧
    (∀ addr, c = .setProgramCounter addr → t = { s with pc := t.pc })

/-- R103: between commands the host reads every field as it stands; a read of an address that names no byte is the
model's fault noSuchAddress, a choice of the model's (log entry 5). -/
def Obligations.InspectionReadsEveryField : Prop :=
  ∀ s : State,
    (∀ i, inspect (.reg i) s = .ok (s.reg i).toNat) ∧
    (∀ a, a < 4096 → inspect (.mem a) s = .ok (Memory.read s.mem a).toNat) ∧
    (∀ a, 4096 ≤ a → inspect (.mem a) s = .error (.noSuchAddress a)) ∧
    inspect .pc s = .ok s.pc.toNat ∧ inspect .sp s = .ok s.sp.val ∧ (∀ i, inspect (.slot i) s = .ok (s.slot i).toNat) ∧
    inspect .execState s = .ok (match s.execState with | .halted => 0 | .running => 1) ∧
    inspect .faultKind s =
      .ok (match s.fault.kind with
        | .none => 0 | .stackOverflow => 1 | .stackUnderflow => 2 | .outOfBoundsAddress => 3
        | .unimplementedOpcode => 4) ∧
    inspect .faultOpcode s = .ok s.fault.opcode.toNat

/-- What the spec derives in R107 ("[derived]"): Load and SetProgramCounter can come in either order. -/
def Obligations.LoadAndSetProgramCounterCommute : Prop :=
  ∀ (s : State) (n addr pc : Nat) (bytes : List Byte),
    ∃ t r q, session Config.hardware n [.load addr bytes, .setProgramCounter pc] s = some (t, [r, q]) ∧
      session Config.hardware n [.setProgramCounter pc, .load addr bytes] s = some (t, [q, r])

/-- R107: after the boot sequence a Step runs the loaded instruction, from whatever state the core was in before. -/
def Obligations.BootRunsTheLoadedInstruction : Prop :=
  ∀ (s : State) (n addr : Nat) (i : Instr), 0x200 ≤ addr → addr + 2 < 4096 →
    ∃ m t, Memory.read m addr = highByte (encode i) ∧ Memory.read m (addr + 1) = lowByte (encode i) ∧
      exec i { State.reset with mem := m, execState := .running, pc := BitVec.ofNat 16 (addr + 2) } = .next t ∧
      session Config.hardware n [.reset, .load addr (encodeBytes i), .setProgramCounter addr, .step] s =
        some (t, [.ok, .ok, .ok, responseOf t.fault])

/-! ### Invariants -/

/-- A step keeps a launch state a launch state (R33, R106): memory in its canonical form, the fault word 0 unless the
kind is UnimplementedOpcode; with either value of the advance bound. -/
def Obligations.StepKeepsLaunchStates : Prop :=
  ∀ (cfg : Config) (s t : State), s.launchOk → stepWith cfg s = .next t → t.launchOk

/-- A step keeps every address the machine holds below `MEM_SIZE` (R32, R73): `pc` and all 16 slots. -/
def Obligations.StepKeepsAddressesInMemory : Prop :=
  ∀ s t : State, s.addressesInMemory → step s = .next t → t.addressesInMemory

/-- The invariants hold at reset. -/
def Obligations.ResetMeetsTheInvariants : Prop :=
  State.reset.launchOk ∧ State.reset.addressesInMemory ∧ State.reset.reservedZero Config.hardware

/-- Every command keeps a launch state a launch state, with the stack slots in memory and reserved memory 0 (R46, R73,
R106). -/
def Obligations.CommandsKeepTheInvariants : Prop :=
  ∀ (s t : State) (n : Nat) (c : Command) (r : Response), s.launchOk → (∀ i, (s.slot i).toNat < 4096) →
    s.reservedZero Config.hardware → command Config.hardware n c s = some (t, r) →
    t.launchOk ∧ (∀ i, (t.slot i).toNat < 4096) ∧ t.reservedZero Config.hardware

/-- What the spec derives in R106 ("[derived]"): from reset every general register stays 0 under every sequence of
host commands. -/
def Obligations.RegistersStayZeroFromReset : Prop :=
  ∀ s : State, Reachable Config.hardware s → ∀ i, s.reg i = 0#8

/-! ### The assembler -/

/-- R60 (the spec's decision D15), with the model's own rendering of an instruction (log entry 7): assembling its text
gives its two bytes, high byte first, wherever it stands. -/
def Obligations.AssembleOfRenderIsTheInstruction : Prop :=
  ∀ (i : Instr) (origin : Nat), assemble origin [render i] = .ok [highByte (encode i), lowByte (encode i)]

/-- R55, R60: the assembler gives a word exactly for operands that fit their fields. -/
def Obligations.AssemblerRefusesOperandsThatDoNotFit : Prop :=
  (∀ a : Nat, (a ≤ 0xFFF → sourceWord (.call a) = .ok (BitVec.ofNat 16 (0x2000 + a))) ∧
    (0xFFF < a → sourceWord (.call a) = .error (.operandTooLarge (.call a)))) ∧
  (∀ x y : Nat, (x ≤ 15 → y ≤ 15 → sourceWord (.add x y) = .ok (BitVec.ofNat 16 (0x8004 + x * 256 + y * 16))) ∧
    (15 < x ∨ 15 < y → sourceWord (.add x y) = .error (.operandTooLarge (.add x y))))
end

