-- ==== Sys2Proof/Laws/Codec.lean ====
section
/-! SUPPORT. Small facts of the encoding: the fields of each encoded instruction, the bytes of a word, and that every
instruction is well-formed. -/

namespace Sys2Proof.Laws

@[simp] theorem regOfNibble_nibbleOfReg (r : RegIndex) : regOfNibble (nibbleOfReg r) = r := rfl

@[simp] theorem nibbleOfReg_regOfNibble (n : Nibble) : nibbleOfReg (regOfNibble n) = n := rfl

/-! ### Fields and bytes as numbers -/

theorem fieldC_toNat (op : Word) : (fieldC op).toNat = op.toNat / 4096 := by
  have := op.isLt
  simp only [fieldC, BitVec.extractLsb'_toNat, Nat.shiftRight_eq_div_pow]; omega

theorem fieldX_toNat (op : Word) : (fieldX op).toNat = op.toNat / 256 % 16 := by
  simp only [fieldX, BitVec.extractLsb'_toNat, Nat.shiftRight_eq_div_pow]

theorem fieldY_toNat (op : Word) : (fieldY op).toNat = op.toNat / 16 % 16 := by
  simp only [fieldY, BitVec.extractLsb'_toNat, Nat.shiftRight_eq_div_pow]

theorem fieldD_toNat (op : Word) : (fieldD op).toNat = op.toNat % 16 := by
  simp [fieldD, BitVec.extractLsb'_toNat]

theorem fieldNNN_toNat (op : Word) : (fieldNNN op).toNat = op.toNat % 4096 := by
  simp [fieldNNN, BitVec.extractLsb'_toNat]

theorem highByte_toNat (op : Word) : (highByte op).toNat = op.toNat / 256 := by
  have := op.isLt
  simp only [highByte, BitVec.extractLsb'_toNat, Nat.shiftRight_eq_div_pow]; omega

theorem lowByte_toNat (op : Word) : (lowByte op).toNat = op.toNat % 256 := by
  simp [lowByte, BitVec.extractLsb'_toNat]

theorem wordOfBytes_toNat (hi lo : Byte) : (wordOfBytes hi lo).toNat = hi.toNat * 256 + lo.toNat := by
  simp only [wordOfBytes, BitVec.toNat_append]
  rw [← Nat.shiftLeft_add_eq_or_of_lt lo.isLt, Nat.shiftLeft_eq]

theorem regOfNibble_val (n : Nibble) : (regOfNibble n).val = n.toNat := rfl

theorem nibbleOfReg_toNat (r : RegIndex) : (nibbleOfReg r).toNat = r.val := rfl

/-! ### A word, its bytes and its fields -/

/-- A word is its two bytes, high byte first. -/
theorem wordOfBytes_high_low (op : Word) : wordOfBytes (highByte op) (lowByte op) = op := by
  apply BitVec.eq_of_toNat_eq
  rw [wordOfBytes_toNat, highByte_toNat, lowByte_toNat]; omega

@[simp] theorem highByte_wordOfBytes (hi lo : Byte) : highByte (wordOfBytes hi lo) = hi := by
  apply BitVec.eq_of_toNat_eq
  have := lo.isLt
  rw [highByte_toNat, wordOfBytes_toNat]; omega

@[simp] theorem lowByte_wordOfBytes (hi lo : Byte) : lowByte (wordOfBytes hi lo) = lo := by
  apply BitVec.eq_of_toNat_eq
  have := lo.isLt
  rw [lowByte_toNat, wordOfBytes_toNat]; omega

/-- Two words with the same four fields are one word. -/
theorem word_eq_of_fields {v w : Word} (hc : fieldC v = fieldC w) (hx : fieldX v = fieldX w) (hy : fieldY v = fieldY w)
    (hd : fieldD v = fieldD w) : v = w := by
  apply BitVec.eq_of_toNat_eq
  have c := congrArg BitVec.toNat hc
  have x := congrArg BitVec.toNat hx
  have y := congrArg BitVec.toNat hy
  have d := congrArg BitVec.toNat hd
  simp only [fieldC_toNat, fieldX_toNat, fieldY_toNat, fieldD_toNat] at c x y d
  omega

/-! ### Encoded instructions as numbers -/

theorem encode_call_toNat (nnn : Addr12) : (encode (.call nnn)).toNat = 0x2000 + nnn.toNat := by
  simp only [encode, BitVec.toNat_append]
  rw [← Nat.shiftLeft_add_eq_or_of_lt nnn.isLt, Nat.shiftLeft_eq]
  rfl

theorem encode_add_toNat (x y : RegIndex) : (encode (.add x y)).toNat = 0x8004 + x.val * 256 + y.val * 16 := by
  revert x y; decide

/-- The types of an instruction make it well-formed. -/
theorem wellFormed_all (i : Instr) : i.wellFormed = true := by
  cases i with
  | halt => rfl
  | ret => rfl
  | call nnn =>
    have := nnn.isLt
    simp only [Instr.wellFormed, Instr.toSource, SourceInstr.wellFormed, decide_eq_true_eq]; omega
  | add x y =>
    have := x.isLt; have := y.isLt
    simp only [Instr.wellFormed, Instr.toSource, SourceInstr.wellFormed, Bool.and_eq_true, decide_eq_true_eq]; omega

/-- Writing an instruction with plain numbers loses nothing. -/
theorem toInstr_toSource (i : Instr) : i.toSource.toInstr = some i := by
  cases i with
  | halt => rfl
  | ret => rfl
  | call nnn =>
    have := nnn.isLt
    simp [Instr.toSource, SourceInstr.toInstr, show nnn.toNat ≤ 4095 by omega]
  | add x y => simp [Instr.toSource, SourceInstr.toInstr]

/-- A source instruction stands for an instruction exactly when it is well-formed. -/
theorem toInstr_isSome (i : SourceInstr) : i.toInstr.isSome = i.wellFormed := by
  cases i with
  | halt => rfl
  | ret => rfl
  | call a => by_cases h : a ≤ 0xFFF <;> simp [SourceInstr.toInstr, SourceInstr.wellFormed, h]
  | add x y =>
    by_cases hx : x < 16 <;> by_cases hy : y < 16 <;>
      simp [SourceInstr.toInstr, SourceInstr.wellFormed, hx, hy, show (x ≤ 15) = (x < 16) by simp; omega,
        show (y ≤ 15) = (y < 16) by simp; omega]

end Sys2Proof.Laws
end

