-- ==== Sys2Proof/Laws/Config.lean ====
section
/-! SUPPORT. The values of the constants, for arithmetic. -/

namespace Sys2Proof

@[simp] theorem memSize_eq : memSize = 4096 := rfl
@[simp] theorem stackSize_eq : stackSize = 16 := rfl
@[simp] theorem insnBytes_eq : insnBytes = 2 := rfl
@[simp] theorem flagReg_val : flagReg.val = 15 := rfl
@[simp] theorem hardware_pcLimitInclusive : Config.hardware.pcLimitInclusive = false := rfl
@[simp] theorem hardware_reservedEnd : Config.hardware.reservedEnd = 0x1FF := rfl
@[simp] theorem hardware_programStart : Config.hardware.programStart = 0x200 := rfl

end Sys2Proof
end

