-- ==== Sys2Proof/Laws/State.lean ====
section
/-! SUPPORT. What each update of the state does to each field, and to each read of the state: one lemma per field per
update, so that no proof unfolds a record update. -/

namespace Sys2Proof.Machine

variable (s : State)

@[simp] theorem setReg_regs (i : RegIndex) (b : Byte) : (s.setReg i b).regs = s.regs.set i.val b := rfl
@[simp] theorem setReg_pc (i : RegIndex) (b : Byte) : (s.setReg i b).pc = s.pc := rfl
@[simp] theorem setReg_sp (i : RegIndex) (b : Byte) : (s.setReg i b).sp = s.sp := rfl
@[simp] theorem setReg_stack (i : RegIndex) (b : Byte) : (s.setReg i b).stack = s.stack := rfl
@[simp] theorem setReg_mem (i : RegIndex) (b : Byte) : (s.setReg i b).mem = s.mem := rfl
@[simp] theorem setReg_execState (i : RegIndex) (b : Byte) : (s.setReg i b).execState = s.execState := rfl
@[simp] theorem setReg_fault (i : RegIndex) (b : Byte) : (s.setReg i b).fault = s.fault := rfl

@[simp] theorem setPc_regs (w : Word) : (s.setPc w).regs = s.regs := rfl
@[simp] theorem setPc_pc (w : Word) : (s.setPc w).pc = w := rfl
@[simp] theorem setPc_sp (w : Word) : (s.setPc w).sp = s.sp := rfl
@[simp] theorem setPc_stack (w : Word) : (s.setPc w).stack = s.stack := rfl
@[simp] theorem setPc_mem (w : Word) : (s.setPc w).mem = s.mem := rfl
@[simp] theorem setPc_execState (w : Word) : (s.setPc w).execState = s.execState := rfl
@[simp] theorem setPc_fault (w : Word) : (s.setPc w).fault = s.fault := rfl

@[simp] theorem setSp_regs (n : Fin 17) : (s.setSp n).regs = s.regs := rfl
@[simp] theorem setSp_pc (n : Fin 17) : (s.setSp n).pc = s.pc := rfl
@[simp] theorem setSp_sp (n : Fin 17) : (s.setSp n).sp = n := rfl
@[simp] theorem setSp_stack (n : Fin 17) : (s.setSp n).stack = s.stack := rfl
@[simp] theorem setSp_mem (n : Fin 17) : (s.setSp n).mem = s.mem := rfl
@[simp] theorem setSp_execState (n : Fin 17) : (s.setSp n).execState = s.execState := rfl
@[simp] theorem setSp_fault (n : Fin 17) : (s.setSp n).fault = s.fault := rfl

@[simp] theorem setSlot_regs (i : Fin 16) (w : Word) : (s.setSlot i w).regs = s.regs := rfl
@[simp] theorem setSlot_pc (i : Fin 16) (w : Word) : (s.setSlot i w).pc = s.pc := rfl
@[simp] theorem setSlot_sp (i : Fin 16) (w : Word) : (s.setSlot i w).sp = s.sp := rfl
@[simp] theorem setSlot_stack (i : Fin 16) (w : Word) : (s.setSlot i w).stack = s.stack.set i.val w := rfl
@[simp] theorem setSlot_mem (i : Fin 16) (w : Word) : (s.setSlot i w).mem = s.mem := rfl
@[simp] theorem setSlot_execState (i : Fin 16) (w : Word) : (s.setSlot i w).execState = s.execState := rfl
@[simp] theorem setSlot_fault (i : Fin 16) (w : Word) : (s.setSlot i w).fault = s.fault := rfl

@[simp] theorem setMem_regs (m : Memory) : (s.setMem m).regs = s.regs := rfl
@[simp] theorem setMem_pc (m : Memory) : (s.setMem m).pc = s.pc := rfl
@[simp] theorem setMem_sp (m : Memory) : (s.setMem m).sp = s.sp := rfl
@[simp] theorem setMem_stack (m : Memory) : (s.setMem m).stack = s.stack := rfl
@[simp] theorem setMem_mem (m : Memory) : (s.setMem m).mem = m := rfl
@[simp] theorem setMem_execState (m : Memory) : (s.setMem m).execState = s.execState := rfl
@[simp] theorem setMem_fault (m : Memory) : (s.setMem m).fault = s.fault := rfl

@[simp] theorem setExecState_regs (e : ExecState) : (s.setExecState e).regs = s.regs := rfl
@[simp] theorem setExecState_pc (e : ExecState) : (s.setExecState e).pc = s.pc := rfl
@[simp] theorem setExecState_sp (e : ExecState) : (s.setExecState e).sp = s.sp := rfl
@[simp] theorem setExecState_stack (e : ExecState) : (s.setExecState e).stack = s.stack := rfl
@[simp] theorem setExecState_mem (e : ExecState) : (s.setExecState e).mem = s.mem := rfl
@[simp] theorem setExecState_execState (e : ExecState) : (s.setExecState e).execState = e := rfl
@[simp] theorem setExecState_fault (e : ExecState) : (s.setExecState e).fault = s.fault := rfl

@[simp] theorem raise_regs (k : FaultKind) (w : Word) : (s.raise k w).regs = s.regs := rfl
@[simp] theorem raise_pc (k : FaultKind) (w : Word) : (s.raise k w).pc = s.pc := rfl
@[simp] theorem raise_sp (k : FaultKind) (w : Word) : (s.raise k w).sp = s.sp := rfl
@[simp] theorem raise_stack (k : FaultKind) (w : Word) : (s.raise k w).stack = s.stack := rfl
@[simp] theorem raise_mem (k : FaultKind) (w : Word) : (s.raise k w).mem = s.mem := rfl
@[simp] theorem raise_execState (k : FaultKind) (w : Word) : (s.raise k w).execState = s.execState := rfl
@[simp] theorem raise_fault (k : FaultKind) (w : Word) : (s.raise k w).fault = { kind := k, opcode := w } := rfl

/-! ### Reads through the accessors -/

theorem reg_setReg (i j : RegIndex) (b : Byte) : (s.setReg i b).reg j = if i = j then b else s.reg j := by
  simp [State.reg, Vector.getElem_set, Fin.ext_iff]

@[simp] theorem reg_setReg_same (i : RegIndex) (b : Byte) : (s.setReg i b).reg i = b := by
  simp [reg_setReg]

theorem reg_setReg_other {i j : RegIndex} (h : i ≠ j) (b : Byte) : (s.setReg i b).reg j = s.reg j := by
  simp [reg_setReg, h]

theorem slot_setSlot (i j : Fin 16) (w : Word) : (s.setSlot i w).slot j = if i = j then w else s.slot j := by
  simp [State.slot, Vector.getElem_set, Fin.ext_iff]

@[simp] theorem slot_setSlot_same (i : Fin 16) (w : Word) : (s.setSlot i w).slot i = w := by
  simp [slot_setSlot]

theorem slot_setSlot_other {i j : Fin 16} (h : i ≠ j) (w : Word) : (s.setSlot i w).slot j = s.slot j := by
  simp [slot_setSlot, h]

@[simp] theorem slot_setReg (i : RegIndex) (b : Byte) (j : Fin 16) : (s.setReg i b).slot j = s.slot j := rfl
@[simp] theorem readByte_setReg (i : RegIndex) (b : Byte) (a : Nat) : (s.setReg i b).readByte a = s.readByte a := rfl
@[simp] theorem readWord_setReg (i : RegIndex) (b : Byte) (a : Nat) : (s.setReg i b).readWord a = s.readWord a := rfl
@[simp] theorem faulted_setReg (i : RegIndex) (b : Byte) : (s.setReg i b).faulted = s.faulted := rfl

@[simp] theorem reg_setPc (w : Word) (j : RegIndex) : (s.setPc w).reg j = s.reg j := rfl
@[simp] theorem slot_setPc (w : Word) (j : Fin 16) : (s.setPc w).slot j = s.slot j := rfl
@[simp] theorem readByte_setPc (w : Word) (a : Nat) : (s.setPc w).readByte a = s.readByte a := rfl
@[simp] theorem readWord_setPc (w : Word) (a : Nat) : (s.setPc w).readWord a = s.readWord a := rfl
@[simp] theorem faulted_setPc (w : Word) : (s.setPc w).faulted = s.faulted := rfl

@[simp] theorem reg_setSp (n : Fin 17) (j : RegIndex) : (s.setSp n).reg j = s.reg j := rfl
@[simp] theorem slot_setSp (n : Fin 17) (j : Fin 16) : (s.setSp n).slot j = s.slot j := rfl
@[simp] theorem readByte_setSp (n : Fin 17) (a : Nat) : (s.setSp n).readByte a = s.readByte a := rfl
@[simp] theorem readWord_setSp (n : Fin 17) (a : Nat) : (s.setSp n).readWord a = s.readWord a := rfl
@[simp] theorem faulted_setSp (n : Fin 17) : (s.setSp n).faulted = s.faulted := rfl

@[simp] theorem reg_setSlot (i : Fin 16) (w : Word) (j : RegIndex) : (s.setSlot i w).reg j = s.reg j := rfl
@[simp] theorem readByte_setSlot (i : Fin 16) (w : Word) (a : Nat) : (s.setSlot i w).readByte a = s.readByte a := rfl
@[simp] theorem readWord_setSlot (i : Fin 16) (w : Word) (a : Nat) : (s.setSlot i w).readWord a = s.readWord a := rfl
@[simp] theorem faulted_setSlot (i : Fin 16) (w : Word) : (s.setSlot i w).faulted = s.faulted := rfl

@[simp] theorem reg_setMem (m : Memory) (j : RegIndex) : (s.setMem m).reg j = s.reg j := rfl
@[simp] theorem slot_setMem (m : Memory) (j : Fin 16) : (s.setMem m).slot j = s.slot j := rfl
@[simp] theorem faulted_setMem (m : Memory) : (s.setMem m).faulted = s.faulted := rfl

@[simp] theorem reg_setExecState (e : ExecState) (j : RegIndex) : (s.setExecState e).reg j = s.reg j := rfl
@[simp] theorem slot_setExecState (e : ExecState) (j : Fin 16) : (s.setExecState e).slot j = s.slot j := rfl
@[simp] theorem readByte_setExecState (e : ExecState) (a : Nat) : (s.setExecState e).readByte a = s.readByte a := rfl
@[simp] theorem readWord_setExecState (e : ExecState) (a : Nat) : (s.setExecState e).readWord a = s.readWord a := rfl
@[simp] theorem faulted_setExecState (e : ExecState) : (s.setExecState e).faulted = s.faulted := rfl

@[simp] theorem reg_raise (k : FaultKind) (w : Word) (j : RegIndex) : (s.raise k w).reg j = s.reg j := rfl
@[simp] theorem slot_raise (k : FaultKind) (w : Word) (j : Fin 16) : (s.raise k w).slot j = s.slot j := rfl
@[simp] theorem readByte_raise (k : FaultKind) (w : Word) (a : Nat) : (s.raise k w).readByte a = s.readByte a := rfl
@[simp] theorem readWord_raise (k : FaultKind) (w : Word) (a : Nat) : (s.raise k w).readWord a = s.readWord a := rfl

@[simp] theorem raise_faulted (k : FaultKind) (w : Word) : (s.raise k w).faulted = decide (k ≠ .none) := rfl

theorem faulted_eq_false : s.faulted = false ↔ s.fault.kind = .none := by simp [State.faulted]

theorem faulted_eq_true : s.faulted = true ↔ s.fault.kind ≠ .none := by simp [State.faulted]

end Sys2Proof.Machine
end

