-- ==== Sys2Proof/Laws/Memory.lean ====
section
/-! SUPPORT. Memory: what a read gives after a write, and that every operation keeps the canonical form. -/

namespace Sys2Proof.Machine

/-! ### Reads below the first listed address -/

theorem Memory.read_of_wfFrom {m : Memory} : ∀ {lo a : Nat}, Memory.wfFrom lo m = true → a < lo → Memory.read m a = 0#8 := by
  induction m with
  | nil => intros; rfl
  | cons c m ih =>
    obtain ⟨k, v⟩ := c
    intro lo a h hlt
    simp only [Memory.wfFrom, Bool.and_eq_true, decide_eq_true_eq] at h
    have hne : a ≠ k := by omega
    simp only [Memory.read, if_neg hne]
    exact ih h.2 (by omega)

theorem Memory.wfFrom_mono {m : Memory} {lo lo' : Nat} (h : Memory.wfFrom lo m = true) (hle : lo' ≤ lo) :
    Memory.wfFrom lo' m = true := by
  cases m with
  | nil => rfl
  | cons c m =>
    obtain ⟨k, v⟩ := c
    simp only [Memory.wfFrom, Bool.and_eq_true, decide_eq_true_eq] at h ⊢
    exact ⟨⟨⟨by omega, h.1.1.2⟩, h.1.2⟩, h.2⟩

/-! ### Read after write -/

theorem Memory.read_write_from {m : Memory} {a : Nat} {b : Byte} (a' : Nat) :
    ∀ {lo : Nat}, Memory.wfFrom lo m = true → Memory.read (Memory.write a b m) a' = if a' = a then b else Memory.read m a' := by
  induction m with
  | nil =>
    intro lo _
    by_cases hb : b = 0#8 <;> by_cases ha : a' = a <;> simp [Memory.write, Memory.read, hb, ha]
  | cons c m ih =>
    obtain ⟨k, v⟩ := c
    intro lo h
    simp only [Memory.wfFrom, Bool.and_eq_true, decide_eq_true_eq] at h
    have hlow : ∀ x, x ≤ k → Memory.read m x = 0#8 := fun x hx => Memory.read_of_wfFrom h.2 (by omega)
    rcases Nat.lt_trichotomy a k with hlt | rfl | hgt
    · have hread : a' = a → Memory.read ((k, v) :: m) a' = 0#8 := by
        rintro rfl
        simp [Memory.read, show a' ≠ k by omega, hlow a' (by omega)]
      simp only [Memory.write, if_pos hlt]
      by_cases hb : b = 0#8 <;> by_cases ha : a' = a <;> simp only [hb, ha, if_true, if_false]
      · rw [← ha]; exact hread ha
      · simp [Memory.read]
      · simp only [Memory.read, if_neg ha]
    · simp only [Memory.write, Nat.lt_irrefl, if_false, if_true]
      by_cases hb : b = 0#8 <;> by_cases ha : a' = a <;> simp [Memory.read, hb, ha, hlow]
    · simp only [Memory.write, if_neg (Nat.not_lt.mpr (Nat.le_of_lt hgt)), if_neg (Nat.ne_of_gt hgt), Memory.read]
      by_cases hk : a' = k
      · subst hk; simp [show a' ≠ a by omega]
      · simp only [if_neg hk]; exact ih h.2

theorem Memory.read_write {m : Memory} (h : Memory.wf m = true) (a a' : Nat) (b : Byte) :
    Memory.read (Memory.write a b m) a' = if a' = a then b else Memory.read m a' :=
  Memory.read_write_from a' h

theorem Memory.read_write_same {m : Memory} (h : Memory.wf m = true) (a : Nat) (b : Byte) :
    Memory.read (Memory.write a b m) a = b := by
  simp [Memory.read_write h]

theorem Memory.read_write_other {m : Memory} (h : Memory.wf m = true) {a a' : Nat} (hne : a' ≠ a) (b : Byte) :
    Memory.read (Memory.write a b m) a' = Memory.read m a' := by
  simp [Memory.read_write h, hne]

/-! ### The canonical form is kept -/

theorem Memory.wfFrom_write {m : Memory} {a : Nat} {b : Byte} (ha : a < memSize) :
    ∀ {lo : Nat}, Memory.wfFrom lo m = true → lo ≤ a → Memory.wfFrom lo (Memory.write a b m) = true := by
  induction m with
  | nil =>
    intro lo _ hlo
    simp only [Memory.write]
    split_ifs with hb
    · rfl
    · simp [Memory.wfFrom, hlo, hb, memSize_eq ▸ ha]
  | cons c m ih =>
    obtain ⟨k, v⟩ := c
    intro lo h hlo
    have h' := h
    simp only [Memory.wfFrom, Bool.and_eq_true, decide_eq_true_eq] at h
    simp only [Memory.write]
    split_ifs with h1 h2 h3 h4
    · exact h'
    · simp only [Memory.wfFrom, Bool.and_eq_true, decide_eq_true_eq]
      exact ⟨⟨⟨hlo, ha⟩, h2⟩, ⟨⟨by omega, h.1.1.2⟩, h.1.2⟩, h.2⟩
    · exact Memory.wfFrom_mono h.2 (by omega)
    · subst h3
      simp only [Memory.wfFrom, Bool.and_eq_true, decide_eq_true_eq]
      exact ⟨⟨⟨hlo, ha⟩, h4⟩, h.2⟩
    · simp only [Memory.wfFrom, Bool.and_eq_true, decide_eq_true_eq]
      exact ⟨⟨⟨h.1.1.1, h.1.1.2⟩, h.1.2⟩, ih h.2 (by omega)⟩

theorem Memory.wf_write {m : Memory} (h : Memory.wf m = true) {a : Nat} (ha : a < memSize) (b : Byte) :
    Memory.wf (Memory.write a b m) = true :=
  Memory.wfFrom_write ha h (Nat.zero_le a)

theorem Memory.wf_writeBytes {bs : List Byte} :
    ∀ {m : Memory} {a : Nat}, Memory.wf m = true → a + bs.length ≤ memSize → Memory.wf (Memory.writeBytes a bs m) = true := by
  induction bs with
  | nil => intro m a h _; exact h
  | cons b bs ih =>
    intro m a h hlen
    simp only [List.length_cons] at hlen
    exact ih (Memory.wf_write h (by omega) b) (by omega)

/-- What a byte reads as after a sequence of bytes is written: the byte placed there, or what it was. -/
theorem Memory.read_writeBytes {bs : List Byte} :
    ∀ {m : Memory} {a : Nat}, Memory.wf m = true → a + bs.length ≤ memSize → ∀ x,
      Memory.read (Memory.writeBytes a bs m) x = if h : a ≤ x ∧ x - a < bs.length then bs[x - a]'h.2 else Memory.read m x := by
  induction bs with
  | nil => intro m a _ _ x; simp [Memory.writeBytes]
  | cons b bs ih =>
    intro m a h hlen x
    simp only [List.length_cons] at hlen
    simp only [Memory.writeBytes]
    rw [ih (Memory.wf_write h (by omega) b) (by omega), Memory.read_write h]
    by_cases hx : x = a
    · subst hx; simp
    · by_cases hlt : a + 1 ≤ x
      · have hs : x - a = (x - (a + 1)) + 1 := by omega
        simp only [hs, List.getElem_cons_succ, List.length_cons]
        split_ifs <;> first | rfl | omega
      · simp [hx, show ¬ (a + 1 ≤ x) by omega, show ¬ (a ≤ x) by omega]

/-- The memory after reset is in its canonical form. -/
theorem Memory.wf_reset : Memory.wf State.reset.mem = true := rfl

@[simp] theorem Memory.read_reset (a : Nat) : Memory.read State.reset.mem a = 0#8 := rfl

theorem Memory.wf_placeAtPc_bytes {s : State} (h : Memory.wf s.mem = true) {a : Nat} (ha : a + 1 < memSize) (b0 b1 : Byte) :
    Memory.wf (Memory.writeBytes a [b0, b1] s.mem) = true :=
  Memory.wf_writeBytes h (by simp only [List.length_cons, List.length_nil]; omega)

end Sys2Proof.Machine
end

