-- ==== Sys2Proof/Laws/Ops.lean ====
section
/-! SUPPORT. What each shared operation can do, said once: push, pop, the word read, the arithmetic of ADD. -/

namespace Sys2Proof.Machine

variable {s t : State}

theorem push_of_full (h : s.sp.val = 16) (w : Word) : s.push w = none := by
  simp [State.push, h]

theorem push_of_room (h : s.sp.val < 16) (w : Word) :
    s.push w = some ((s.setSlot ⟨s.sp.val, h⟩ w).setSp ⟨s.sp.val + 1, Nat.succ_lt_succ h⟩) := by
  simp [State.push, h]

/-- A push that answers a state wrote one slot and `sp`. -/
theorem push_eq_some {w : Word} (h : s.push w = some t) :
    ∃ hr : s.sp.val < 16, t = (s.setSlot ⟨s.sp.val, hr⟩ w).setSp ⟨s.sp.val + 1, Nat.succ_lt_succ hr⟩ := by
  by_cases hr : s.sp.val < 16
  · exact ⟨hr, by simpa [push_of_room hr] using h.symm⟩
  · simp [State.push, hr] at h

theorem push_eq_none {w : Word} (h : s.push w = none) : s.sp.val = 16 := by
  by_cases hr : s.sp.val < 16
  · simp [push_of_room hr] at h
  · have := s.sp.isLt; omega

theorem pop_of_empty (h : s.sp.val = 0) : s.pop = none := by
  unfold State.pop
  split
  · rfl
  · rename_i n hn heq; rw [heq] at h; simp at h

theorem pop_of_pos (h : 0 < s.sp.val) :
    s.pop = some (s.slot ⟨s.sp.val - 1, by omega⟩, s.setSp ⟨s.sp.val - 1, by omega⟩) := by
  unfold State.pop
  split
  · rename_i hn heq; rw [heq] at h; simp at h
  · rename_i n hn heq; simp [heq]

/-- A pop that answers read the slot below `sp` and wrote `sp` alone. -/
theorem pop_eq_some {w : Word} (h : s.pop = some (w, t)) :
    ∃ hp : 0 < s.sp.val, w = s.slot ⟨s.sp.val - 1, by omega⟩ ∧ t = s.setSp ⟨s.sp.val - 1, by omega⟩ := by
  by_cases hp : 0 < s.sp.val
  · rw [pop_of_pos hp] at h
    simp only [Option.some.injEq, Prod.mk.injEq] at h
    exact ⟨hp, h.1.symm, h.2.symm⟩
  · simp [pop_of_empty (show s.sp.val = 0 by omega)] at h

theorem pop_eq_none (h : s.pop = none) : s.sp.val = 0 := by
  by_cases hp : 0 < s.sp.val
  · simp [pop_of_pos hp] at h
  · omega

theorem readByte_eq_some {a : Nat} {b : Byte} :
    s.readByte a = some b ↔ a < memSize ∧ Memory.read s.mem a = b := by
  unfold State.readByte
  by_cases h : a < memSize
  · rw [if_pos h]; simp only [Option.some.injEq, h, true_and]
  · rw [if_neg h]; simp only [reduceCtorEq, h, false_and]

theorem readWord_eq_some {a : Nat} {w : Word} :
    s.readWord a = some w ↔ a + 1 < memSize ∧ wordOfBytes (Memory.read s.mem a) (Memory.read s.mem (a + 1)) = w := by
  unfold State.readWord
  by_cases h : a + 1 < memSize
  · rw [if_pos h]; simp only [Option.some.injEq, h, true_and]
  · rw [if_neg h]; simp only [reduceCtorEq, h, false_and]

theorem readWord_eq_none {a : Nat} : s.readWord a = none ↔ memSize ≤ a + 1 := by
  unfold State.readWord
  by_cases h : a + 1 < memSize
  · rw [if_pos h]; simp only [reduceCtorEq, false_iff]; omega
  · rw [if_neg h]; simp only [true_iff]; omega

/-- The word read is the two bytes, high byte first. -/
theorem readWord_of_bytes {a : Nat} {b0 b1 : Byte} (h0 : s.readByte a = some b0) (h1 : s.readByte (a + 1) = some b1) :
    s.readWord a = some (wordOfBytes b0 b1) := by
  rw [readByte_eq_some] at h0 h1
  rw [readWord_eq_some]
  exact ⟨h1.1, by rw [h0.2, h1.2]⟩

theorem addSum_le (a b : Byte) : addSum a b ≤ 510 := by
  have := a.isLt; have := b.isLt
  simp only [addSum]; omega

theorem addResult_toNat (a b : Byte) : (addResult a b).toNat = addSum a b % 256 := by
  simp [addResult]

theorem addCarry_of_le {a b : Byte} (h : 256 ≤ addSum a b) : addCarry a b = 1#8 := if_pos h

theorem addCarry_of_lt {a b : Byte} (h : addSum a b < 256) : addCarry a b = 0#8 := if_neg (by omega)

theorem callTarget_toNat (nnn : Addr12) : (callTarget nnn).toNat = nnn.toNat := by
  have := nnn.isLt
  simp only [callTarget, BitVec.toNat_setWidth]; omega

end Sys2Proof.Machine
end

