-- ==== Sys2Proof/Laws/Step.lean ====
section
/-! SUPPORT. What one step can do, said once, and that it always answers a next state. -/

namespace Sys2Proof.Machine

variable {cfg : Config} {s t : State}

theorem advance_eq (cfg : Config) (s : State) :
    s.advance cfg =
      if advanceInBound cfg (s.pc.toNat + insnBytes) = true then
        some (s.setPc (BitVec.ofNat 16 (s.pc.toNat + insnBytes)))
      else none := rfl

@[simp] theorem advanceInBound_hardware (n : Nat) : advanceInBound Config.hardware n = decide (n < 4096) := rfl

/-- The fetch of a step that dispatches, in numbers, on this hardware. -/
theorem fetches_hardware {op : Word} :
    s.fetches Config.hardware op ↔ s.fault.kind = .none ∧ s.readWord s.pc.toNat = some op ∧ s.pc.toNat + 2 < 4096 := by
  simp [State.fetches, faulted_eq_false]

/-- Every way a step can go (R62, R84), in the order of its checks. -/
theorem stepWith_cases (cfg : Config) (s : State) :
    (s.faulted = true ∧ stepWith cfg s = .next s) ∨
    (s.faulted = false ∧ s.readWord s.pc.toNat = none ∧
      stepWith cfg s = .next ((s.setExecState .running).raise .outOfBoundsAddress 0#16)) ∨
    (s.faulted = false ∧ (∃ op, s.readWord s.pc.toNat = some op) ∧
      advanceInBound cfg (s.pc.toNat + insnBytes) = false ∧
      stepWith cfg s = .next ((s.setExecState .running).raise .outOfBoundsAddress 0#16)) ∨
    (∃ op, s.fetches cfg op ∧ stepWith cfg s = dispatch op s.atDispatch) := by
  cases hf : s.faulted with
  | true => exact .inl ⟨rfl, by simp [stepWith, hf]⟩
  | false =>
    refine .inr ?_
    have hstep : stepWith cfg s = fetchAndDispatch cfg (s.setExecState .running) := by simp [stepWith, hf]
    cases hr : s.readWord s.pc.toNat with
    | none => exact .inl ⟨rfl, rfl, by simp [hstep, fetchAndDispatch, hr]⟩
    | some op =>
      refine .inr ?_
      cases ha : advanceInBound cfg (s.pc.toNat + insnBytes) with
      | false =>
        refine .inl ⟨rfl, ⟨op, rfl⟩, rfl, ?_⟩
        simp only [hstep, fetchAndDispatch, readWord_setExecState, setExecState_pc, hr, advance_eq, ha]
        simp
      | true =>
        refine .inr ⟨op, ⟨hf, hr, ha⟩, ?_⟩
        simp only [hstep, fetchAndDispatch, readWord_setExecState, setExecState_pc, hr, advance_eq, ha, State.atDispatch]
        simp

/-- A word that is an instruction is dispatched to it. -/
theorem dispatch_of_decode {op : Word} {i : Instr} (h : decodeWord op = .ok i) (s : State) :
    dispatch op s = exec i s := by
  simp [dispatch, h]

/-- A word that is none raises UnimplementedOpcode with the word. -/
theorem dispatch_of_error {op : Word} {e : DecodeError} (h : decodeWord op = .error e) (s : State) :
    dispatch op s = .next (s.raise .unimplementedOpcode op) := by
  simp [dispatch, h]

theorem exec_next (i : Instr) (s : State) : ∃ t, exec i s = .next t := by
  cases i with
  | halt => exact ⟨_, rfl⟩
  | ret =>
    simp only [exec, execRet]
    cases s.pop with
    | none => exact ⟨_, rfl⟩
    | some p => exact ⟨_, rfl⟩
  | call nnn =>
    simp only [exec, execCall]
    cases s.push s.pc with
    | none => exact ⟨_, rfl⟩
    | some t => exact ⟨_, rfl⟩
  | add x y => exact ⟨_, rfl⟩

theorem stepWith_next (cfg : Config) (s : State) : ∃ t, stepWith cfg s = .next t := by
  rcases stepWith_cases cfg s with ⟨-, h⟩ | ⟨-, -, h⟩ | ⟨-, -, -, h⟩ | ⟨op, -, h⟩
  · exact ⟨_, h⟩
  · exact ⟨_, h⟩
  · exact ⟨_, h⟩
  · rw [h]
    cases hd : decodeWord op with
    | ok i => simpa [dispatch_of_decode hd] using exec_next i s.atDispatch
    | error e => exact ⟨_, dispatch_of_error hd _⟩

/-- The Step command answers the state after the step and its fault register. -/
theorem stepCommand_of_next (h : stepWith cfg s = .next t) : stepCommand cfg s = some (t, responseOf t.fault) := by
  simp [stepCommand, h]

end Sys2Proof.Machine
end

