-- ==== Sys2Proof/Laws/Commands.lean ====
section
/-! SUPPORT. The host commands: what each answers on a faulted core, one turn of the loop of Run, and the induction over
commands, packaged once: what the step, Load, SetProgramCounter and Reset keep, every command keeps. -/

namespace Sys2Proof.Machine

variable {cfg : Config}

theorem responseOf_of_none {f : FaultReg} (h : f.kind = .none) : responseOf f = .ok := by simp [responseOf, h]

theorem responseOf_of_fault {f : FaultReg} (h : f.kind ≠ .none) : responseOf f = .err f.kind f.opcode := by
  simp [responseOf, h]

/-- A Load writes its bytes, or it writes nothing and is refused. -/
theorem load_cases (cfg : Config) (addr : Nat) (bytes : List Byte) (s : State) :
    ((addr ≤ cfg.reservedEnd ∨ memSize < addr + bytes.length) ∧
      load cfg addr bytes s = (s, .err .outOfBoundsAddress 0#16)) ∨
    (cfg.reservedEnd < addr ∧ addr + bytes.length ≤ memSize ∧
      load cfg addr bytes s = (s.setMem (Memory.writeBytes addr bytes s.mem), .ok)) := by
  by_cases h1 : addr ≤ cfg.reservedEnd
  · exact .inl ⟨.inl h1, if_pos h1⟩
  · by_cases h2 : memSize < addr + bytes.length
    · exact .inl ⟨.inr h2, by simp only [load, if_neg h1, if_pos h2]⟩
    · exact .inr ⟨Nat.lt_of_not_le h1, Nat.le_of_not_lt h2, by simp only [load, if_neg h1, if_neg h2]⟩

/-- SetProgramCounter writes `pc`, or it writes nothing and is refused. -/
theorem setProgramCounter_cases (addr : Nat) (s : State) :
    (0xFFFF < addr ∧ setProgramCounter addr s = (s, .err .outOfBoundsAddress 0#16)) ∨
    (addr ≤ 0xFFFF ∧ setProgramCounter addr s = (s.setPc (BitVec.ofNat 16 addr), .ok)) := by
  by_cases h : 0xFFFF < addr
  · exact .inl ⟨h, if_pos h⟩
  · exact .inr ⟨Nat.le_of_not_lt h, if_neg h⟩

/-- One turn of the loop of Run. -/
theorem runLoop_succ {s t : State} (h : stepWith cfg s = .next t) (n : Nat) :
    runLoop cfg (n + 1) s =
      if t.fault.kind = .none then (if t.execState = .halted then some (t, .ok) else runLoop cfg n t)
      else some (t, .err t.fault.kind t.fault.opcode) := by
  by_cases hf : t.fault.kind = .none
  · simp [runLoop, stepCommand_of_next h, responseOf_of_none hf, hf]
  · simp [runLoop, stepCommand_of_next h, responseOf_of_fault hf, hf]

theorem run_of_none {s : State} (h : s.fault.kind = .none) (n : Nat) :
    run cfg n s = runLoop cfg n (s.setExecState .running) := by
  simp [run, State.faulted, h]

/-- What a step keeps, the loop of Run keeps. -/
theorem runLoop_keeps {P : State → Prop} (hstep : ∀ s t, P s → stepWith cfg s = .next t → P t) :
    ∀ {n : Nat} {s t : State} {r : Response}, P s → runLoop cfg n s = some (t, r) → P t := by
  intro n
  induction n with
  | zero => intro s t r _ h; simp [runLoop] at h
  | succ n ih =>
    intro s t r hs h
    obtain ⟨u, hu⟩ := stepWith_next cfg s
    have pu := hstep s u hs hu
    rw [runLoop_succ hu] at h
    split_ifs at h
    · simp only [Option.some.injEq, Prod.mk.injEq] at h
      exact h.1 ▸ pu
    · exact ih pu h
    · simp only [Option.some.injEq, Prod.mk.injEq] at h
      exact h.1 ▸ pu

/-- What a step and a write of `state` keep, Run keeps. -/
theorem run_keeps {P : State → Prop} (hstep : ∀ s t, P s → stepWith cfg s = .next t → P t)
    (hexec : ∀ s e, P s → P (s.setExecState e)) {n : Nat} {s t : State} {r : Response} (hs : P s)
    (h : run cfg n s = some (t, r)) : P t := by
  unfold run at h
  split_ifs at h
  · simp only [Option.some.injEq, Prod.mk.injEq] at h
    exact h.1 ▸ hs
  · exact runLoop_keeps hstep (hexec s .running hs) h

/-- What the step, a write of `state`, a write of `pc`, an accepted Load and Reset keep, every command keeps. -/
theorem command_keeps {P : State → Prop} (hstep : ∀ s t, P s → stepWith cfg s = .next t → P t)
    (hexec : ∀ s e, P s → P (s.setExecState e)) (hpc : ∀ s w, P s → P (s.setPc w)) (hreset : P State.reset)
    (hload : ∀ s addr bytes, P s → cfg.reservedEnd < addr → addr + bytes.length ≤ memSize →
      P (s.setMem (Memory.writeBytes addr bytes s.mem)))
    {n : Nat} {c : Command} {s t : State} {r : Response} (hs : P s) (h : command cfg n c s = some (t, r)) : P t := by
  cases c with
  | reset =>
    simp only [command, Option.some.injEq, Prod.mk.injEq] at h
    exact h.1 ▸ hreset
  | load addr bytes =>
    rcases load_cases cfg addr bytes s with ⟨-, e⟩ | ⟨h1, h2, e⟩ <;>
      simp only [command, e, Option.some.injEq, Prod.mk.injEq] at h
    · exact h.1 ▸ hs
    · exact h.1 ▸ hload s addr bytes hs h1 h2
  | setProgramCounter addr =>
    rcases setProgramCounter_cases addr s with ⟨-, e⟩ | ⟨-, e⟩ <;>
      simp only [command, e, Option.some.injEq, Prod.mk.injEq] at h
    · exact h.1 ▸ hs
    · exact h.1 ▸ hpc s _ hs
  | step =>
    obtain ⟨u, hu⟩ := stepWith_next cfg s
    simp only [command, stepCommand_of_next hu, Option.some.injEq, Prod.mk.injEq] at h
    exact h.1 ▸ hstep s u hs hu
  | run => exact run_keeps hstep hexec hs h
  | runFromStart =>
    rcases setProgramCounter_cases cfg.programStart s with ⟨-, e⟩ | ⟨-, e⟩ <;>
      simp only [command, runFromStart, e] at h
    · simp only [Option.some.injEq, Prod.mk.injEq] at h
      exact h.1 ▸ hs
    · exact run_keeps hstep hexec (hpc s _ hs) h

/-- What every command keeps and reset has, every reachable state has. -/
theorem reachable_keeps {P : State → Prop} (hreset : P State.reset)
    (hcommand : ∀ n c s t r, P s → command cfg n c s = some (t, r) → P t) {s : State} (h : Reachable cfg s) : P s := by
  induction h with
  | reset => exact hreset
  | command _ hc ih => exact hcommand _ _ _ _ _ ih hc

end Sys2Proof.Machine
end

