-- ==== Sys2Proof/Laws/PerInstr.lean ====
section
/-! SUPPORT. Statements about every instruction, one lemma per constructor. -/

namespace Sys2Proof.Laws

/-- An instruction's operands fit their fields, and its word selects its own row of the opcode map (R55, R56). -/
def SelectsOwnRow.Statement (i : Instr) : Prop := i.wellFormed = true ∧ i.row.selects (encode i) = true

theorem SelectsOwnRow.halt : SelectsOwnRow.Statement .halt := ⟨wellFormed_all _, by decide⟩

theorem SelectsOwnRow.ret : SelectsOwnRow.Statement .ret := ⟨wellFormed_all _, by decide⟩

theorem SelectsOwnRow.call (nnn : Addr12) : SelectsOwnRow.Statement (.call nnn) := by
  refine ⟨wellFormed_all _, ?_⟩
  have key : encode (.call nnn) &&& 0xF000#16 = 0x2000#16 := by
    simp only [encode]
    rw [show (0xF000#16 : Word) = 0xF#4 ++ 0x000#12 by decide, BitVec.and_append]
    simp
  simp [Instr.row, rowCall, OpcodeRow.selects, key]

theorem SelectsOwnRow.add (x y : RegIndex) : SelectsOwnRow.Statement (.add x y) := by
  refine ⟨wellFormed_all _, ?_⟩
  revert x y; decide

end Sys2Proof.Laws
end

