-- ==== Sys2Proof/Tests/Slice0.lean ====
section
/-! SUPPORT. Tests of the model against spec/95_test_vectors.md and the encodings of spec/30_encoding.md, the smoke
tests of well-formedness, and for each statement with hypotheses a state that meets them. -/

namespace Sys2Proof.Tests

open Sys2Proof.Machine

/-! ### Helpers -/

/-- A launch state (R106): reset values, `pc`, and bytes placed at `pc`. -/
def launch (pc : Nat) (bytes : List Byte) : State :=
  { State.reset with pc := BitVec.ofNat 16 pc, mem := Memory.writeBytes pc bytes [] }

/-- `s` with two registers set. -/
def withRegs (i : RegIndex) (a : Byte) (j : RegIndex) (b : Byte) (s : State) : State := (s.setReg i a).setReg j b

/-- `s` with `n` returns pending, every slot holding `w`. -/
def withStack (n : Fin 17) (w : Word) (s : State) : State := { s with sp := n, stack := Vector.replicate 16 w }

/-- The state after vector U1: an unimplemented word was fetched at 0x200. -/
def faultedState : State :=
  { launch 0x200 [0x12, 0x00] with
    pc := 0x202, execState := .running, fault := { kind := .unimplementedOpcode, opcode := 0x1200 } }

/-- Does the outcome answer a next state with this property? -/
def answers (o : Host.Outcome State Fault Refusal) (p : State → Bool) : Bool :=
  match o with
  | .next t => p t
  | .fault _ => false
  | .refused _ => false

/-- Does the command answer this response and a state with this property? -/
def responds (o : Option (State × Response)) (r : Response) (p : State → Bool) : Bool :=
  match o with
  | some (t, q) => decide (q = r) && p t
  | none => false

/-! ### Well-formedness: an ill-formed term for each check -/

theorem test_wellFormed_refuses_call_0x1000 : (SourceInstr.call 0x1000).wellFormed = false := by decide
theorem test_wellFormed_refuses_destination_16 : (SourceInstr.add 16 0).wellFormed = false := by decide
theorem test_wellFormed_refuses_source_16 : (SourceInstr.add 0 16).wellFormed = false := by decide
theorem test_wellFormed_takes_the_largest_operands :
    (SourceInstr.call 0xFFF).wellFormed = true ∧ (SourceInstr.add 15 15).wellFormed = true := by decide

/-! ### Encoding: words written out bit by bit from the table of R56 -/

theorem test_decode_halt : decodeWord 0b0000_0000_0000_0000#16 = .ok .halt := by decide
theorem test_decode_ret : decodeWord 0b0000_0000_1110_1110#16 = .ok .ret := by decide
theorem test_decode_call : decodeWord 0b0010_0011_0000_0001#16 = .ok (.call 0x301#12) := by decide
theorem test_decode_add : decodeWord 0b1000_1110_0011_0100#16 = .ok (.add 14 3) := by decide
theorem test_encode_words :
    encode .ret = 0x00EE#16 ∧ encode (.call 0x301#12) = 0x2301#16 ∧ encode (.add 14 3) = 0x8E34#16 := by decide
/-- Vectors U1 to U9: each neighbour of the map is no instruction. -/
theorem test_unimplemented_neighbours :
    [0x1200#16, 0x00E0#16, 0x00EF#16, 0x0001#16, 0x01EE#16, 0x8015#16, 0x8000#16, 0xFFFF#16, 0x3000#16].all
      (fun w => decide (decodeWord w = .error (.unimplementedOpcode w))) = true := by decide
theorem test_decode_refuses_half_a_word : decodeBytes [0x80#8] = .error .truncated := by decide
theorem test_decode_leaves_the_rest :
    decodeBytes [0x80#8, 0x14#8, 0xAB#8] = .ok (.add 0 1, [0xAB#8]) := by decide
theorem test_decodeTableWord :
    decodeTableWord 16 0x8E34 = some (.add 14 3) ∧ decodeTableWord 16 0x00EE = some .ret ∧
    decodeTableWord 16 0x3000 = none := by decide
/-- The table's word is stored where the first step after reset fetches it, and runs. -/
theorem test_withFetchWord_runs :
    answers (step (State.reset.withFetchWord 16 0x2300)) (fun t => t.pc == 0x300 && t.slot 0 == 0x002) = true := by
  decide

/-! ### The instructions, one step each -/

/-- Vector H1: a Step on a Halted core executes the HALT and ends Halted. -/
theorem test_halt_h1 :
    answers (step (launch 0x200 [])) (fun t => t.pc == 0x202 && t.execState == .halted) = true := by decide
/-- Vector S2: the HALT at 0xFFE does not execute. -/
theorem test_halt_s2 :
    answers (step (launch 0xFFE [])) (fun t => t.pc == 0xFFE && t.execState == .running &&
      t.fault == { kind := .outOfBoundsAddress, opcode := 0 }) = true := by decide
/-- Vector C1: the slot is not cleared. -/
theorem test_ret_c1 :
    answers (step (withStack 1 0x202 (launch 0x300 [0x00, 0xEE])))
      (fun t => t.sp == 0 && t.pc == 0x202 && t.slot 0 == 0x202) = true := by decide
/-- Vector C2: underflow, with the step's advance kept. -/
theorem test_ret_c2 :
    answers (step (launch 0x200 [0x00, 0xEE])) (fun t => t.sp == 0 && t.pc == 0x202 && t.execState == .running &&
      t.fault == { kind := .stackUnderflow, opcode := 0 }) = true := by decide
/-- Vector B7: a CALL at an odd address pushes 0xFFF. -/
theorem test_call_b7 :
    answers (step (launch 0xFFD [0x22, 0x00])) (fun t => t.slot 0 == 0xFFF && t.sp == 1 && t.pc == 0x200) = true := by
  decide
/-- Vector B3: overflow changes no slot. -/
theorem test_call_b3 :
    answers (step (withStack 16 0x40F (launch 0x200 [0x23, 0x00]))) (fun t => t.sp == 16 && t.slot 15 == 0x40F &&
      t.pc == 0x202 && t.execState == .running && t.fault == { kind := .stackOverflow, opcode := 0 }) = true := by decide
/-- Vector A9: the old VF is the operand, the carry is the new one. -/
theorem test_add_a9 :
    answers (step (withRegs 0 250 15 10 (launch 0x200 [0x80, 0xF4]))) (fun t => t.reg 0 == 4 && t.reg 15 == 1) = true := by
  decide
/-- Vector A8: a sum written to VF is lost. -/
theorem test_add_a8 :
    answers (step (withRegs 15 5 1 10 (launch 0x200 [0x8F, 0x14]))) (fun t => t.reg 15 == 0 && t.reg 1 == 10) = true := by
  decide

/-! ### The step -/

/-- Vector U1. -/
theorem test_step_u1 : answers (step (launch 0x200 [0x12, 0x00])) (fun t => t == faultedState) = true := by decide
/-- Vector S3: with the inclusive bound the HALT at 0xFFE executes. -/
theorem test_step_s3 :
    answers (stepWith { Config.hardware with pcLimitInclusive := true } (launch 0xFFE []))
      (fun t => t.pc == 0x1000 && t.execState == .halted) = true := by decide
/-- Vectors S4 to S6: no fetch beyond memory. -/
theorem test_step_s4_s6 :
    [0xFFF, 0x1000, 0xFFFF].all (fun a => answers (step (launch a []))
      (fun t => t.pc == BitVec.ofNat 16 a && t.fault == { kind := .outOfBoundsAddress, opcode := 0 })) = true := by decide
/-- Vector S7: the fetch at an odd address reads the word 0x1400. -/
theorem test_step_s7 :
    answers (step { launch 0x200 [0x80, 0x14, 0x00, 0x00] with pc := 0x201 })
      (fun t => t.pc == 0x203 && t.fault == { kind := .unimplementedOpcode, opcode := 0x1400 }) = true := by decide

/-! ### Host commands -/

/-- Vectors L1-8b, d, e, h, i: the bounds of Load. -/
theorem test_load_bounds :
    (load Config.hardware 0x1FF [0x12] State.reset).2 = .err .outOfBoundsAddress 0 ∧
    (load Config.hardware 0xFFF [0x12] State.reset).1.readByte 0xFFF = some 0x12 ∧
    load Config.hardware 0xFFF [0x12, 0x34] State.reset = (State.reset, .err .outOfBoundsAddress 0) ∧
    load Config.hardware 0x1000 [] State.reset = (State.reset, .ok) ∧
    (load Config.hardware 0x1001 [] State.reset).2 = .err .outOfBoundsAddress 0 := by decide
/-- Vectors K1, K2. -/
theorem test_setProgramCounter_k1_k2 :
    setProgramCounter 0xFFFF State.reset = ({ State.reset with pc := 0xFFFF }, .ok) ∧
    setProgramCounter 0x10000 State.reset = (State.reset, .err .outOfBoundsAddress 0) := by decide
/-- Vector K5: RunFromStart on a faulted core. -/
theorem test_runFromStart_k5 :
    command Config.hardware 9 .runFromStart faultedState =
      some ({ faultedState with pc := 0x200 }, .err .unimplementedOpcode 0x1200) := by decide
/-- Vector K6: Reset clears the fault. -/
theorem test_reset_k6 : command Config.hardware 0 .reset faultedState = some (State.reset, .ok) := by decide
/-- Vector L1-5: CALL 0x000, then the HALT at 0; two steps, so a patience of one sees no response. -/
theorem test_run_l1_5 :
    responds (run Config.hardware 2 (launch 0x200 [0x20, 0x00])) .ok
      (fun t => t.pc == 2 && t.sp == 1 && t.slot 0 == 0x202 && t.execState == .halted) = true ∧
    run Config.hardware 1 (launch 0x200 [0x20, 0x00]) = none := by decide
/-- R103: an address that names no byte cannot be read. -/
theorem test_inspect_edges :
    inspect (.mem 0xFFF) (launch 0xFFF [0x12]) = .ok 0x12 ∧
    inspect (.mem 0x1000) State.reset = .error (.noSuchAddress 0x1000) ∧
    inspect .faultKind faultedState = .ok 4 := by decide

/-! ### The assembler (R60) -/

/-- Lines in the syntax of R60, worked by hand: labels, comments, either case of a mnemonic, a data word. -/
theorem test_assemble_labels :
    assemble 0x200 ["main: call outer ; 0x2206".toList, "  HALT".toList, "; nothing".toList, "DW 0x00e0".toList,
      "outer: ADD V0,VF".toList, "RET".toList] =
    .ok [0x22, 0x06, 0x00, 0x00, 0x00, 0xE0, 0x80, 0xF4, 0x00, 0xEE] := by decide
theorem test_assemble_refuses :
    assemble 0x200 ["CALL 0x1000".toList] = .error (.badLine "CALL 0x1000".toList) ∧
    assemble 0xFFF ["HALT".toList, "end: CALL end".toList] = .error (.operandTooLarge (.call 0x1001)) ∧
    assemble 0x200 ["CALL there".toList] = .error (.unknownLabel "there".toList) := by decide

/-! ### Memory keeps its form -/

theorem test_memory_write_zero_removes :
    Memory.write 5 0 (Memory.write 7 1 (Memory.write 5 9 [])) = [(7, 1)] ∧
    Memory.write 5 9 (Memory.write 7 1 []) = [(5, 9), (7, 1)] := by decide
theorem test_memory_wf_refuses :
    Memory.wf [(7, 1), (5, 9)] = false ∧ Memory.wf [(5, 0)] = false ∧ Memory.wf [(0x1000, 1)] = false := by decide

/-! ### States that meet the hypotheses of the statements -/

theorem witness_ResetCommandRestoresEveryField :
    faultedState.fault.kind ≠ .none ∧ Command.step ≠ .reset ∧
    ∃ t r, command Config.hardware 0 .step faultedState = some (t, r) := ⟨by decide, by decide, _, _, rfl⟩

theorem witness_OpcodeRowsAreDisjointAndCounted :
    rowCall ∈ opcodeTable ∧ rowCall.selects 0x2FFF = true := by decide

theorem witness_EncodeOfDecodeIsTheWord : decodeWord 0x8E34#16 = .ok (.add 14 3) := by decide

theorem witness_UnimplementedWordsFault :
    (launch 0xFFD [0x12, 0x00]).fetches Config.hardware 0x1200 ∧
    decodeWord 0x1200#16 = .error (.unimplementedOpcode 0x1200) := by decide

theorem witness_EqualMemoriesAreEqualData :
    Memory.wf [(0xFFF, 1#8)] = true ∧ ∀ a, Memory.read [(0xFFF, 1#8)] a = Memory.read [(0xFFF, 1#8)] a :=
  ⟨by decide, fun _ => rfl⟩

/-- A memory that differs from the state's away from the fetched word; a state whose fetch is out of bound. -/
theorem witness_StepReadsOnlyTheFetchedWord :
    ((launch 0x200 [0x80, 0x14]).fault.kind = .none ∧ (launch 0x200 [0x80, 0x14]).pc.toNat + 1 < 4096 ∧
      Memory.read [(0x200, 0x80#8), (0x201, 0x14#8), (0x300, 7#8)] 0x200 =
        Memory.read (launch 0x200 [0x80, 0x14]).mem 0x200 ∧
      Memory.read [(0x200, 0x80#8), (0x201, 0x14#8), (0x300, 7#8)] 0x201 =
        Memory.read (launch 0x200 [0x80, 0x14]).mem 0x201 ∧
      [(0x200, 0x80#8), (0x201, 0x14#8), (0x300, 7#8)] ≠ (launch 0x200 [0x80, 0x14]).mem) ∧
    ¬ (launch 0xFFF []).pc.toNat + 1 < 4096 := by decide

theorem witness_FetchNeedsNoAlignment :
    0xFFE + 1 ≤ 4095 ∧ (launch 0xFFF []).fault.kind = .none ∧ 4095 < (launch 0xFFF []).pc.toNat + 1 ∧
    0x1FF < 0xFFF ∧ 0xFFF ≤ 0xFFF ∧ Memory.wf (launch 0xFFF [1]).mem = true := by decide

/-- Load at 0x1FF; two bytes at 0xFFF; one byte at 0xFFF; none at 0x200 and at 0x1000, the ends of what it takes. -/
theorem witness_LoadWritesExactlyItsBytes :
    Memory.wf (launch 0x200 [1]).mem = true ∧ 0x1FF ≤ 0x1FF ∧ 4096 < 0xFFF + [1#8, 2#8].length ∧
    0x1FF < 0xFFF ∧ 0xFFF + [1#8].length ≤ 4096 ∧ [1#8][0]? = some 1#8 ∧
    0x1FF < 0x200 ∧ 0x1000 + ([] : List Byte).length ≤ 4096 := by decide

theorem witness_FetchAfterLoadSeesTheBytes :
    Memory.wf State.reset.mem = true ∧ [0x20#8, 0x34#8][0]? = some 0x20#8 ∧ [0x20#8, 0x34#8][0 + 1]? = some 0x34#8 ∧
    ∃ t, command Config.hardware 0 (.load 0xFFE [0x20, 0x34]) State.reset = some (t, .ok) :=
  ⟨by decide, by decide, by decide, _, rfl⟩

/-- A state the host reaches: a program loaded over the reset state. -/
theorem reachable_loaded : Reachable Config.hardware { State.reset with mem := [(0x200, 0x22#8)] } :=
  .command (c := .load 0x200 [0x22]) (patience := 0) (r := .ok) .reset (by decide)

theorem witness_ReservedMemoryKeepsItsResetValue :
    ∃ s, Reachable Config.hardware s ∧ s.readByte 0x200 = some 0x22#8 := ⟨_, reachable_loaded, by decide⟩

theorem witness_StepNeverWritesMemory :
    ∃ t, stepWith Config.hardware (launch 0x200 [0x23, 0x00]) = .next t ∧ t.mem ≠ [] := ⟨_, rfl, by decide⟩

theorem witness_StepRunsTheDecodedInstruction :
    (launch 0xFFD [0x22, 0x00]).fault.kind = .none ∧ (launch 0xFFD [0x22, 0x00]).pc.toNat + 2 < 4096 ∧
    (launch 0xFFD [0x22, 0x00]).readByte 0xFFD = some 0x22#8 ∧ (launch 0xFFD [0x22, 0x00]).readByte 0xFFE = some 0#8 ∧
    decodeBytes [0x22, 0x00] = .ok (.call 0x200, []) ∧ (Instr.call 0x200).wellFormed = true := by decide

theorem witness_FaultedCoreDoesNotStep : faultedState.fault.kind ≠ .none := by decide

theorem witness_FetchBoundRaisesOutOfBounds :
    (launch 0xFFF []).fault.kind = .none ∧ 0xFFF ≤ (launch 0xFFF []).pc.toNat ∧
    (launch 0xFFE []).pc.toNat ≤ 0xFFE := by decide

/-- The one address where the two values of the bound differ, and the address below it. -/
theorem witness_AdvanceBoundRaisesOutOfBounds :
    (launch 0xFFE []).fault.kind = .none ∧ (launch 0xFFE []).readWord (launch 0xFFE []).pc.toNat = some 0#16 ∧
    Config.hardware.pcLimitInclusive = false ∧ ¬ (launch 0xFFE []).pc.toNat + 2 < 4096 ∧
    { Config.hardware with pcLimitInclusive := true }.pcLimitInclusive = true ∧ (launch 0xFFE []).pc.toNat + 2 ≤ 4096 ∧
    (launch 0xFFD []).readWord (launch 0xFFD []).pc.toNat = some 0#16 ∧ (launch 0xFFD []).pc.toNat + 2 < 4096 := by
  decide

theorem witness_HaltedExactlyAfterHalt :
    (launch 0x200 []).fault.kind = .none ∧
    (∃ t, step (launch 0x200 []) = .next t ∧ t.execState = .halted) ∧
    ∃ t, step (launch 0xFFE []) = .next t ∧ t.fault.kind ≠ .none :=
  ⟨by decide, ⟨_, rfl, by decide⟩, _, rfl, by decide⟩

/-- One step for each kind of fault. -/
theorem witness_StateAtAFault :
    (∃ t, step (launch 0xFFE []) = .next t ∧ t.fault.kind = .outOfBoundsAddress) ∧
    (∃ t, step (launch 0x200 [0x12, 0x00]) = .next t ∧ t.fault.kind = .unimplementedOpcode) ∧
    (∃ t, step (withStack 16 0 (launch 0x200 [0x23, 0x00])) = .next t ∧ t.fault.kind = .stackOverflow) ∧
    ∃ t, step (launch 0x200 [0x00, 0xEE]) = .next t ∧ t.fault.kind = .stackUnderflow :=
  ⟨⟨_, rfl, by decide⟩, ⟨_, rfl, by decide⟩, ⟨_, rfl, by decide⟩, _, rfl, by decide⟩

/-- A step for each branch: the gate, each bound at its first address, the dispatch of each instruction, and of CALL and
RET where they fault. -/
theorem witness_FirstFailingCheckDecidesTheFault :
    [faultedState, launch 0xFFF [], launch 0xFFE [], launch 0xFFD [], launch 0xFFD [0x12], launch 0x200 [0x80, 0x14],
      launch 0x200 [0x23], withStack 16 0 (launch 0x200 [0x23]), withStack 1 0 (launch 0x200 [0x00, 0xEE]),
      launch 0x200 [0x00, 0xEE]].map (fun s => answers (step s) (fun t => t.fault.kind == .none)) =
    [false, false, false, true, false, true, true, false, true, false] := by decide

theorem witness_FaultIsStickyUntilReset :
    faultedState.fault.kind ≠ .none ∧ (∀ a, Query.mem 4095 = .mem a → a < 4096) ∧ 0xFFFF ≤ 0xFFFF ∧ 0x1FF < 0xFFF ∧ 0xFFF + [1#8].length ≤ 4096 ∧
    Command.runFromStart ≠ .reset ∧
    ∃ t r, command Config.hardware 0 .runFromStart faultedState = some (t, r) :=
  ⟨by decide, fun _ h => by cases h; decide, by decide, by decide, by decide, by decide, _, _, rfl⟩

theorem witness_OnlyTheFirstFaultIsRecorded :
    faultedState.fault.kind ≠ .none ∧ Command.reset ∉ [Command.load 0x200 [1], .runFromStart, .step] ∧
    ∃ t rs, session Config.hardware 0 [.load 0x200 [1], .runFromStart, .step] faultedState = some (t, rs) :=
  ⟨by decide, by decide, _, _, rfl⟩

theorem witness_ProgramCounterNeverWraps :
    (launch 0xFFE []).fetches { Config.hardware with pcLimitInclusive := true } 0 ∧
    0x1000 ≤ 0x1000 ∧ 0xFFFF ≤ 0xFFFF ∧ State.reset.fault.kind = .none ∧
    (launch 0xFFD [0x22, 0x00]).fetches Config.hardware (encode (.call 0x200)) ∧
    (launch 0xFFE [0x22, 0x00]).fetches { Config.hardware with pcLimitInclusive := true } (encode (.call 0x200)) ∧
    (0 : Fin 16).val = (launch 0xFFD [0x22, 0x00]).sp.val ∧ Config.hardware.pcLimitInclusive = false ∧
    ∃ t, stepWith Config.hardware (launch 0xFFD [0x22, 0x00]) = .next t :=
  ⟨by decide, by decide, by decide, by decide, by decide, by decide, by decide, by decide, _, rfl⟩

theorem witness_ProgramCounterAfterEachInstruction :
    ((launch 0xFFD []).fetches Config.hardware 0x0000 ∧ decodeWord 0x0000#16 = .ok .halt) ∧
    ((launch 0x200 [0x80, 0x14]).fetches Config.hardware 0x8014 ∧ decodeWord 0x8014#16 = .ok (.add 0 1)) ∧
    ((withStack 15 0 (launch 0x200 [0x2F, 0xFF])).fetches Config.hardware 0x2FFF ∧
      decodeWord 0x2FFF#16 = .ok (.call 0xFFF) ∧ (withStack 15 0 (launch 0x200 [0x2F, 0xFF])).sp.val < 16) ∧
    ((withStack 16 9 (launch 0x200 [0x00, 0xEE])).fetches Config.hardware 0x00EE ∧
      decodeWord 0x00EE#16 = .ok .ret ∧
      (15 : Fin 16).val + 1 = (withStack 16 9 (launch 0x200 [0x00, 0xEE])).sp.val) ∧
    (∃ t, step (launch 0x200 [0x80, 0x14]) = .next t) ∧ 0xFFFF ≤ 0xFFFF :=
  ⟨by decide, by decide, by decide, by decide, ⟨_, rfl⟩, by decide⟩

theorem witness_HaltSetsHalted :
    (launch 0xFFD []).fetches Config.hardware 0x0000 ∧ State.reset.reservedZero Config.hardware ∧
    (launch 0x1FE []).fault.kind = .none ∧ (launch 0x1FE []).pc.toNat ≤ 0x1FE ∧
    (launch 0x1FE []).reservedZero Config.hardware :=
  ⟨by decide, fun _ _ => rfl, by decide, by decide, fun _ _ => rfl⟩

/-- `sp` at 0 and at 16; a popped value of 0x1000. -/
theorem witness_RetPopsTheReturnAddress :
    (launch 0x200 [0x00, 0xEE]).fetches Config.hardware 0x00EE#16 ∧
    State.reset.sp.val = 0 ∧ (15 : Fin 16).val + 1 = (withStack 16 0x1000 State.reset).sp.val ∧
    (15 : Fin 17).val = (15 : Fin 16).val ∧ (withStack 16 0x1000 State.reset).fault.kind = .none ∧
    0x1000 ≤ ((withStack 16 0x1000 State.reset).slot 15).toNat := by decide

/-- `sp` at 16, at 15 and at 0; a CALL stepped at 0xFFD. -/
theorem witness_CallPushesTheReturnAddress :
    (withStack 16 0 State.reset).sp.val = 16 ∧ (15 : Fin 16).val = (withStack 15 0 State.reset).sp.val ∧
    (16 : Fin 17).val = (15 : Fin 16).val + 1 ∧
    (launch 0xFFD [0x22, 0x00]).fetches Config.hardware (0x2000#16 ||| (0x200#12 : Addr12).setWidth 16) ∧
    (0 : Fin 16).val = (launch 0xFFD [0x22, 0x00]).sp.val ∧
    ∃ t, stepWith Config.hardware (launch 0xFFD [0x22, 0x00]) = .next t :=
  ⟨by decide, by decide, by decide, by decide, by decide, _, rfl⟩

/-- `x` at 15 and not; a sum of 255 and one of 256; ADD VF, V0 stepped. -/
theorem witness_AddWritesTheSumThenTheCarry :
    (launch 0x200 [0x8F, 0x04]).fetches Config.hardware
      (0x8000#16 ||| BitVec.ofNat 16 (15 : RegIndex).val <<< 8 ||| BitVec.ofNat 16 (0 : RegIndex).val <<< 4 ||| 4#16) ∧
    (14 : RegIndex) ≠ 15 ∧ (1 : RegIndex) ≠ 14 ∧
    ¬ 256 ≤ ((withRegs 0 255 1 0 State.reset).reg 0).toNat + ((withRegs 0 255 1 0 State.reset).reg 1).toNat ∧
    256 ≤ ((withRegs 0 255 1 1 State.reset).reg 0).toNat + ((withRegs 0 255 1 1 State.reset).reg 1).toNat := by decide

theorem witness_AddArithmeticLaws :
    (0 : RegIndex) ≠ 15 ∧ (14 : RegIndex) ≠ 15 ∧ (0 : RegIndex) ≠ 14 ∧
    (∃ t, exec (.add 0 14) (withRegs 0 255 14 1 State.reset) = .next t) ∧
    ∃ u, exec (.add 14 0) (withRegs 0 255 14 1 State.reset) = .next u :=
  ⟨by decide, by decide, by decide, ⟨_, rfl⟩, _, rfl⟩

theorem witness_AddWithTheFlagRegisterAsOperand : (14 : RegIndex) ≠ 15 := by decide

theorem witness_OnlyAddTouchesGeneralRegisters :
    (∀ x y, Instr.ret ≠ .add x y) ∧ (∃ t, exec .ret State.reset = .next t) ∧
    (∃ t, exec (.add 0 1) State.reset = .next t) ∧ (State.reset.setReg 2 9).reg 0 = State.reset.reg 0 ∧
    (∃ t r, command Config.hardware 0 (.load 0x200 [1]) State.reset = some (t, r)) ∧
    ∃ t r, command Config.hardware 0 (.setProgramCounter 1) State.reset = some (t, r) :=
  ⟨by decide, ⟨_, rfl⟩, ⟨_, rfl⟩, by decide, ⟨_, _, rfl⟩, _, _, rfl⟩

/-- `sp` at each end for RET, and for CALL. -/
theorem witness_ControlInstructionFrames :
    (∃ t, exec .halt State.reset = .next t) ∧ (∃ t, exec .ret State.reset = .next t) ∧ State.reset.sp.val = 0 ∧
    (∃ t, exec .ret (withStack 16 9 State.reset) = .next t) ∧ 0 < (withStack 16 9 State.reset).sp.val ∧
    (∃ t, exec (.call 0xFFF) (withStack 15 9 State.reset) = .next t) ∧
    (15 : Fin 16).val = (withStack 15 9 State.reset).sp.val ∧
    (∃ t, exec (.call 0) (withStack 16 9 State.reset) = .next t) ∧ (withStack 16 9 State.reset).sp.val = 16 :=
  ⟨⟨_, rfl⟩, ⟨_, rfl⟩, by decide, ⟨_, rfl⟩, by decide, ⟨_, rfl⟩, by decide, ⟨_, rfl⟩, by decide⟩

theorem witness_AddFrame : ∃ t, exec (.add 3 15) (withRegs 3 200 15 100 State.reset) = .next t := ⟨_, rfl⟩

/-- A CALL and a RET that move `sp`, and each where it faults. -/
theorem witness_StackPointerMovesByCallAndRetOnly :
    (∃ t, step (withStack 15 9 (launch 0x200 [0x23, 0x00])) = .next t ∧ t.sp ≠ 15) ∧
    (∃ t, step (withStack 1 9 (launch 0x200 [0x00, 0xEE])) = .next t ∧ t.sp ≠ 1) ∧
    ((withStack 16 9 (launch 0x200 [0x23, 0x00])).fetches Config.hardware 0x2300 ∧
      decodeWord 0x2300#16 = .ok (.call 0x300) ∧ (withStack 16 9 (launch 0x200 [0x23, 0x00])).sp.val = 16) ∧
    ((launch 0x200 [0x00, 0xEE]).fetches Config.hardware 0x00EE ∧ decodeWord 0x00EE#16 = .ok .ret ∧
      (launch 0x200 [0x00, 0xEE]).sp.val = 0) ∧
    ∃ t r, command Config.hardware 0 (.setProgramCounter 0x10000) State.reset = some (t, r) :=
  ⟨⟨_, rfl, by decide⟩, ⟨_, rfl, by decide⟩, by decide, by decide, _, _, rfl⟩

theorem witness_RetResumesAfterTheCall :
    (withStack 15 0 State.reset).sp.val < 16 ∧
    ∃ t u, exec (.call 0x300) (withStack 15 0 State.reset) = .next t ∧ u.sp = t.sp ∧ u.stack = t.stack ∧ u ≠ t :=
  ⟨by decide, _, { withStack 16 0 State.reset with pc := 0x304 }, rfl, by decide, by decide, by decide⟩

theorem witness_SixteenCallsNestAndTheNextOverflows :
    State.reset.sp.val + (List.replicate 16 (0x200#12)).length = 16 ∧
    (withStack 16 0 State.reset).sp.val + ([] : List Addr12).length = 16 := by decide

theorem witness_SetProgramCounterWritesPcAlone :
    0xFFFF < 0x10000 ∧ 0xFFFF ≤ 0xFFFF ∧ 0x1000 ≤ 0xFFFF ∧ State.reset.fault.kind = .none := by decide

theorem witness_StepCommandAnswersTheFaultRegister :
    (∃ t, step (launch 0x200 []) = .next t ∧ t.fault.kind = .none) ∧
    (∃ t, step (launch 0xFFE []) = .next t ∧ t.fault.kind ≠ .none) ∧ faultedState.fault.kind ≠ .none ∧
    (launch 0x200 []).fault.kind = .none :=
  ⟨⟨_, rfl, by decide⟩, ⟨_, rfl, by decide⟩, by decide, by decide⟩

/-- A Run that halts and one that faults, each in its second step. -/
theorem witness_RunRepeatsTheStepUntilItEnds :
    faultedState.fault.kind ≠ .none ∧ (launch 0x200 [0x20, 0x00]).fault.kind = .none ∧
    (∃ t, command Config.hardware 2 .run (launch 0x200 [0x20, 0x00]) = some (t, .ok)) ∧
    ∃ t, command Config.hardware 2 .run (launch 0xFFC [0x80, 0x14]) = some (t, .err .outOfBoundsAddress 0) :=
  ⟨by decide, by decide, ⟨_, rfl⟩, _, rfl⟩

theorem witness_StepRaisesTheConfiguration :
    (launch 0x200 [0x22, 0x00]).fault.kind = .none ∧
    ∃ t, stepWith Config.hardware (launch 0x200 [0x22, 0x00]) = .next t ∧ t.fault.kind = .none ∧ t.execState = .running :=
  ⟨by decide, _, rfl, by decide, by decide⟩

theorem witness_RunEndsHaltedOrFaulted :
    (launch 0x200 [0x20, 0x00]).fault.kind = .none ∧
    (∃ t r, command Config.hardware 2 .run (launch 0x200 [0x20, 0x00]) = some (t, r)) ∧
    ∃ t r, command Config.hardware 1 .runFromStart State.reset = some (t, r) :=
  ⟨by decide, ⟨_, _, rfl⟩, _, _, rfl⟩

theorem witness_PatienceDoesNotChangeAResponse :
    (∃ a, command Config.hardware 2 .run (launch 0x200 [0x20, 0x00]) = some a) ∧ 2 ≤ 9 := ⟨⟨_, rfl⟩, by decide⟩

theorem witness_WritersOfEachField :
    Command.run ≠ .reset ∧ (∀ addr bytes, Command.run ≠ .load addr bytes) ∧
    (∃ t r, command Config.hardware 1 .run State.reset = some (t, r)) ∧
    (∃ t r, command Config.hardware 1 (.load 0x200 [1]) State.reset = some (t, r)) ∧
    ∃ t r, command Config.hardware 1 (.setProgramCounter 3) State.reset = some (t, r) :=
  ⟨by decide, by simp, ⟨_, _, rfl⟩, ⟨_, _, rfl⟩, _, _, rfl⟩

theorem witness_InspectionReadsEveryField : 4095 < 4096 ∧ 4096 ≤ 4096 := by decide

theorem witness_BootRunsTheLoadedInstruction : 0x200 ≤ 0x200 ∧ 0x200 ≤ 0xFFD ∧ 0xFFD + 2 < 4096 := by decide

theorem witness_StepKeepsLaunchStates :
    (launch 0x200 [0x12, 0x00]).launchOk ∧ faultedState.launchOk ∧
    ∃ t, stepWith Config.hardware (launch 0x200 [0x12, 0x00]) = .next t := ⟨by decide, by decide, _, rfl⟩

theorem witness_StepKeepsAddressesInMemory :
    (withStack 16 0xFFF (launch 0x200 [0x00, 0xEE])).addressesInMemory ∧
    ∃ t, step (withStack 16 0xFFF (launch 0x200 [0x00, 0xEE])) = .next t := ⟨by decide, _, rfl⟩

theorem witness_CommandsKeepTheInvariants :
    State.reset.launchOk ∧ (∀ i, (State.reset.slot i).toNat < 4096) ∧ State.reset.reservedZero Config.hardware ∧
    ∃ t r, command Config.hardware 0 (.load 0x200 [0x22]) State.reset = some (t, r) :=
  ⟨by decide, by decide, fun _ _ => rfl, _, _, rfl⟩

theorem witness_RegistersStayZeroFromReset : ∃ s, Reachable Config.hardware s ∧ s ≠ State.reset :=
  ⟨_, reachable_loaded, by decide⟩

theorem witness_AssemblerRefusesOperandsThatDoNotFit :
    0xFFF ≤ 0xFFF ∧ 0xFFF < 0x1000 ∧ 15 ≤ 15 ∧ 15 < 16 := by decide

end Sys2Proof.Tests
end

section
/-! What each instruction answers, one equation per branch of its rule (R71 to R75), in the model's own updates. -/

namespace Sys2Proof.Machine

variable {s : State}

theorem exec_halt (s : State) : exec .halt s = .next (s.setExecState .halted) := rfl

theorem exec_ret_of_empty (h : s.sp.val = 0) : exec .ret s = .next (s.raise .stackUnderflow 0#16) := by
  simp [exec, execRet, pop_of_empty h]

theorem exec_ret_of_pos (h : 0 < s.sp.val) :
    exec .ret s = .next ((s.setSp ⟨s.sp.val - 1, by omega⟩).setPc (s.slot ⟨s.sp.val - 1, by omega⟩)) := by
  simp [exec, execRet, pop_of_pos h]

theorem exec_call_of_full (h : s.sp.val = 16) (nnn : Addr12) :
    exec (.call nnn) s = .next (s.raise .stackOverflow 0#16) := by
  simp [exec, execCall, push_of_full h]

theorem exec_call_of_room (h : s.sp.val < 16) (nnn : Addr12) :
    exec (.call nnn) s =
      .next (((s.setSlot ⟨s.sp.val, h⟩ s.pc).setSp ⟨s.sp.val + 1, Nat.succ_lt_succ h⟩).setPc (callTarget nnn)) := by
  simp [exec, execCall, push_of_room h]

theorem exec_add (x y : RegIndex) (s : State) :
    exec (.add x y) s =
      .next ((s.setReg x (addResult (s.reg x) (s.reg y))).setReg flagReg (addCarry (s.reg x) (s.reg y))) := rfl

end Sys2Proof.Machine
end

section
/-! Memory is no step's to write (R21, R41): each instruction, the dispatch of any word, and the whole step keep it. -/

namespace Sys2Proof.Machine

variable {cfg : Config} {s t : State}

@[simp] theorem atDispatch_mem (s : State) : s.atDispatch.mem = s.mem := rfl

/-- A byte read depends on memory alone. -/
theorem sameMemory_of_mem_eq (h : t.mem = s.mem) : s.sameMemory t := fun a => by
  simp only [State.readByte, h]

theorem exec_keeps_mem {i : Instr} (h : exec i s = .next t) : t.mem = s.mem := by
  cases i with
  | halt =>
    rw [exec_halt] at h
    cases h; simp
  | ret =>
    rcases Nat.eq_zero_or_pos s.sp.val with hempty | hpos
    · rw [exec_ret_of_empty hempty] at h
      cases h; simp
    · rw [exec_ret_of_pos hpos] at h
      cases h; simp
  | call nnn =>
    rcases Nat.lt_succ_iff_lt_or_eq.mp s.sp.isLt with hroom | hfull
    · rw [exec_call_of_room hroom] at h
      cases h; simp
    · rw [exec_call_of_full hfull] at h
      cases h; simp
  | add x y =>
    rw [exec_add] at h
    cases h; simp

theorem dispatch_keeps_mem {op : Word} (h : dispatch op s = .next t) : t.mem = s.mem := by
  cases hd : decodeWord op with
  | ok i => exact exec_keeps_mem (dispatch_of_decode hd s ▸ h)
  | error e =>
    rw [dispatch_of_error hd] at h
    cases h; simp

theorem stepWith_keeps_mem (h : stepWith cfg s = .next t) : t.mem = s.mem := by
  rcases stepWith_cases cfg s with ⟨-, hs⟩ | ⟨-, -, hs⟩ | ⟨-, -, -, hs⟩ | ⟨op, -, hs⟩ <;> rw [hs] at h
  case inr.inr.inr => simpa using dispatch_keeps_mem h
  all_goals cases h; simp

end Sys2Proof.Machine
end

section
namespace Sys2Proof.Proofs

open Sys2Proof.Machine

/-- Settles O17: no way a step can go writes memory, and a byte read depends on memory alone. -/
theorem stepNeverWritesMemory : Obligations.StepNeverWritesMemory := by
  unfold Obligations.StepNeverWritesMemory
  intro cfg s t h
  have hmem : t.mem = s.mem := stepWith_keeps_mem h
  exact ⟨hmem, sameMemory_of_mem_eq hmem⟩

end Sys2Proof.Proofs
end

section
/-! What an instruction that answered has done: one inversion per instruction with two branches, and what each
register reads after an ADD (R72, R73, R75). -/

namespace Sys2Proof.Machine

variable {s t : State}

theorem exec_ret_cases (h : exec .ret s = .next t) :
    (s.sp.val = 0 ∧ t = s.raise .stackUnderflow 0#16) ∨
    ∃ hpos : 0 < s.sp.val, t = (s.setSp ⟨s.sp.val - 1, by omega⟩).setPc (s.slot ⟨s.sp.val - 1, by omega⟩) := by
  rcases Nat.eq_zero_or_pos s.sp.val with hempty | hpos
  · rw [exec_ret_of_empty hempty] at h
    cases h; exact .inl ⟨hempty, rfl⟩
  · rw [exec_ret_of_pos hpos] at h
    cases h; exact .inr ⟨hpos, rfl⟩

theorem exec_call_cases {nnn : Addr12} (h : exec (.call nnn) s = .next t) :
    (s.sp.val = 16 ∧ t = s.raise .stackOverflow 0#16) ∨
    ∃ hroom : s.sp.val < 16,
      t = ((s.setSlot ⟨s.sp.val, hroom⟩ s.pc).setSp ⟨s.sp.val + 1, Nat.succ_lt_succ hroom⟩).setPc (callTarget nnn) := by
  rcases Nat.lt_succ_iff_lt_or_eq.mp s.sp.isLt with hroom | hfull
  · rw [exec_call_of_room hroom] at h
    cases h; exact .inr ⟨hroom, rfl⟩
  · rw [exec_call_of_full hfull] at h
    cases h; exact .inl ⟨hfull, rfl⟩

/-- The carry goes to register 15, over a sum written there. -/
theorem exec_add_reg {x y : RegIndex} (h : exec (.add x y) s = .next t) (i : RegIndex) :
    t.reg i =
      if i = 15 then addCarry (s.reg x) (s.reg y) else if i = x then addResult (s.reg x) (s.reg y) else s.reg i := by
  rw [exec_add] at h
  cases h
  simp only [reg_setReg, show flagReg = 15 from rfl, eq_comm (a := i)]

theorem addCarry_toNat (a b : Byte) : (addCarry a b).toNat = (a.toNat + b.toNat) / 256 := by
  have hle := addSum_le a b
  rcases Nat.lt_or_ge (addSum a b) 256 with hlt | hge
  · simp only [addCarry_of_lt hlt, BitVec.toNat_ofNat]
    simp only [addSum] at hlt; omega
  · simp only [addCarry_of_le hge, BitVec.toNat_ofNat]
    simp only [addSum] at hle hge; omega

/-- An instruction that moves `sp` is a CALL with room or a RET with a return pending (R34). -/
theorem exec_moves_sp {i : Instr} (h : exec i s = .next t) (hmoved : t.sp ≠ s.sp) :
    (∃ nnn, i = .call nnn ∧ s.sp.val < 16 ∧ t.sp.val = s.sp.val + 1) ∨ (i = .ret ∧ t.sp.val + 1 = s.sp.val) := by
  cases i with
  | halt =>
    rw [exec_halt] at h
    cases h; exact absurd rfl hmoved
  | ret =>
    rcases exec_ret_cases h with ⟨-, rfl⟩ | ⟨hpos, rfl⟩
    · exact absurd rfl hmoved
    · exact .inr ⟨rfl, Nat.sub_add_cancel hpos⟩
  | call nnn =>
    rcases exec_call_cases h with ⟨-, rfl⟩ | ⟨hroom, rfl⟩
    · exact absurd rfl hmoved
    · exact .inl ⟨nnn, rfl, hroom, rfl⟩
  | add x y =>
    rw [exec_add] at h
    cases h; exact absurd rfl hmoved

/-- HALT, RET and CALL carry the registers along: with other registers they do the same to everything else (R26). -/
theorem exec_control_ignores_regs {i : Instr} (hi : ∀ x y, i ≠ .add x y) (h : exec i s = .next t)
    (v : Vector Byte 16) : t.regs = s.regs ∧ exec i { s with regs := v } = .next { t with regs := v } := by
  cases i with
  | halt =>
    rw [exec_halt] at h
    cases h; exact ⟨rfl, rfl⟩
  | ret =>
    rcases exec_ret_cases h with ⟨hempty, rfl⟩ | ⟨hpos, rfl⟩
    · exact ⟨rfl, exec_ret_of_empty (s := { s with regs := v }) hempty⟩
    · exact ⟨rfl, exec_ret_of_pos (s := { s with regs := v }) hpos⟩
  | call nnn =>
    rcases exec_call_cases h with ⟨hfull, rfl⟩ | ⟨hroom, rfl⟩
    · exact ⟨rfl, exec_call_of_full (s := { s with regs := v }) hfull nnn⟩
    · exact ⟨rfl, exec_call_of_room (s := { s with regs := v }) hroom nnn⟩
  | add x y => exact absurd rfl (hi x y)

end Sys2Proof.Machine
end

section
/-! The step that executes an instruction, and the state its instruction sees (R62, R66, R110). -/

namespace Sys2Proof.Machine

variable {cfg : Config} {s t : State} {op : Word}

@[simp] theorem atDispatch_regs (s : State) : s.atDispatch.regs = s.regs := rfl
@[simp] theorem atDispatch_sp (s : State) : s.atDispatch.sp = s.sp := rfl
@[simp] theorem atDispatch_stack (s : State) : s.atDispatch.stack = s.stack := rfl
@[simp] theorem atDispatch_fault (s : State) : s.atDispatch.fault = s.fault := rfl
@[simp] theorem atDispatch_slot (s : State) (k : Fin 16) : s.atDispatch.slot k = s.slot k := rfl

theorem atDispatch_pc_toNat (h : s.fetches Config.hardware op) : s.atDispatch.pc.toNat = s.pc.toNat + 2 := by
  obtain ⟨-, -, hbound⟩ := fetches_hardware.mp h
  simp only [State.atDispatch, setPc_pc, insnBytes_eq, BitVec.toNat_ofNat]
  omega

/-- A step that fetches a word dispatches that word. -/
theorem stepWith_of_fetches (h : s.fetches cfg op) : stepWith cfg s = dispatch op s.atDispatch := by
  obtain ⟨hgate, hread, hadvance⟩ := h
  rcases stepWith_cases cfg s with ⟨hf, -⟩ | ⟨-, hr, -⟩ | ⟨-, -, ha, -⟩ | ⟨op', ⟨-, hr, -⟩, hs⟩
  · exact absurd hf (by simp [hgate])
  · exact absurd hr (by simp [hread])
  · exact absurd ha (by simp [hadvance])
  · rw [hs, Option.some.inj (hr.symm.trans hread)]

theorem step_of_fetches_decode {i : Instr} (h : s.fetches Config.hardware op) (hd : decodeWord op = .ok i) :
    step s = exec i s.atDispatch :=
  (stepWith_of_fetches h).trans (dispatch_of_decode hd _)

/-- A step that executes no instruction leaves `sp` (R34). -/
theorem stepWith_moves_sp (h : stepWith cfg s = .next t) (hmoved : t.sp ≠ s.sp) :
    ∃ op i, s.fetches cfg op ∧ decodeWord op = .ok i ∧ exec i s.atDispatch = .next t := by
  rcases stepWith_cases cfg s with ⟨-, hs⟩ | ⟨-, -, hs⟩ | ⟨-, -, -, hs⟩ | ⟨op, hfetch, hs⟩ <;> rw [hs] at h
  case inr.inr.inr =>
    cases hd : decodeWord op with
    | ok i => exact ⟨op, i, hfetch, hd, dispatch_of_decode hd _ ▸ h⟩
    | error e =>
      rw [dispatch_of_error hd] at h
      cases h; exact absurd rfl hmoved
  all_goals cases h; exact absurd rfl hmoved

end Sys2Proof.Machine
end

section
/-! What Load and SetProgramCounter can write, taken or refused (R98, R99), and what reads give after reset (R40). -/

namespace Sys2Proof.Machine

variable {cfg : Config} {n addr : Nat} {s t : State} {r : Response}

theorem command_load_writes_mem {bytes : List Byte} (h : command cfg n (.load addr bytes) s = some (t, r)) :
    ∃ m, t = s.setMem m := by
  rcases load_cases cfg addr bytes s with ⟨-, e⟩ | ⟨-, -, e⟩ <;> simp only [command, e] at h <;> cases h
  · exact ⟨s.mem, rfl⟩
  · exact ⟨_, rfl⟩

theorem command_setProgramCounter_writes_pc (h : command cfg n (.setProgramCounter addr) s = some (t, r)) :
    ∃ w, t = s.setPc w := by
  rcases setProgramCounter_cases addr s with ⟨-, e⟩ | ⟨-, e⟩ <;> simp only [command, e] at h <;> cases h
  · exact ⟨s.pc, rfl⟩
  · exact ⟨_, rfl⟩

theorem load_or_setProgramCounter_keeps_regs_sp {bytes : List Byte}
    (h : command cfg n (.load addr bytes) s = some (t, r) ∨ command cfg n (.setProgramCounter addr) s = some (t, r)) :
    t.regs = s.regs ∧ t.sp = s.sp := by
  rcases h with h | h
  · obtain ⟨m, rfl⟩ := command_load_writes_mem h
    exact ⟨rfl, rfl⟩
  · obtain ⟨w, rfl⟩ := command_setProgramCounter_writes_pc h
    exact ⟨rfl, rfl⟩

theorem command_setProgramCounter_of_le (h : addr ≤ 0xFFFF) :
    command cfg n (.setProgramCounter addr) s = some (s.setPc (BitVec.ofNat 16 addr), .ok) :=
  congrArg some (if_neg (Nat.not_lt.mpr h))

/-- `PROGRAM_START` is never refused on this hardware (R102). -/
theorem command_runFromStart_hardware :
    command Config.hardware n .runFromStart s = command Config.hardware n .run (s.setPc 0x200#16) := rfl

@[simp] theorem reg_reset (i : RegIndex) : State.reset.reg i = 0#8 := by
  simp only [State.reg, State.reset, Vector.getElem_replicate]

@[simp] theorem slot_reset (i : Fin 16) : State.reset.slot i = 0#16 := by
  simp only [State.slot, State.reset, Vector.getElem_replicate]

end Sys2Proof.Machine
end

section
/-! The fields of an encoded ADD, and that it decodes to itself (R53, R56). -/

namespace Sys2Proof.Laws

variable (x y : RegIndex)

@[simp] theorem fieldC_encode_add : fieldC (encode (.add x y)) = 8#4 := by
  apply BitVec.eq_of_toNat_eq
  rw [fieldC_toNat, encode_add_toNat, BitVec.toNat_ofNat]; omega

@[simp] theorem fieldX_encode_add : fieldX (encode (.add x y)) = nibbleOfReg x := by
  apply BitVec.eq_of_toNat_eq
  rw [fieldX_toNat, encode_add_toNat, nibbleOfReg_toNat]; omega

@[simp] theorem fieldY_encode_add : fieldY (encode (.add x y)) = nibbleOfReg y := by
  apply BitVec.eq_of_toNat_eq
  rw [fieldY_toNat, encode_add_toNat, nibbleOfReg_toNat]; omega

@[simp] theorem fieldD_encode_add : fieldD (encode (.add x y)) = 4#4 := by
  apply BitVec.eq_of_toNat_eq
  rw [fieldD_toNat, encode_add_toNat, BitVec.toNat_ofNat]; omega

theorem decodeWord_encode_add : decodeWord (encode (.add x y)) = .ok (.add x y) := by
  simp [decodeWord]

end Sys2Proof.Laws
end

section
namespace Sys2Proof.Proofs

open Sys2Proof.Machine Sys2Proof.Laws

/-- Settles O1: the registers, the slots and memory by their reads after reset, the other fields as they stand. -/
theorem resetLeavesTheSpecifiedState : Obligations.ResetLeavesTheSpecifiedState := by
  unfold Obligations.ResetLeavesTheSpecifiedState
  exact ⟨reg_reset, rfl, rfl, slot_reset, fun a ha => readByte_eq_some.mpr ⟨ha, Memory.read_reset a⟩, rfl, rfl, rfl⟩

/-- Settles O55: memory is empty, hence canonical and 0 everywhere, and `pc` and every slot are 0. -/
theorem resetMeetsTheInvariants : Obligations.ResetMeetsTheInvariants := by
  unfold Obligations.ResetMeetsTheInvariants
  have hslots : ∀ i, (State.reset.slot i).toNat < memSize := fun i => by simp
  exact ⟨⟨Memory.wf_reset, fun _ => rfl⟩, ⟨by decide, hslots⟩, fun a _ => Memory.read_reset a⟩

/-- Settles O28: the step is its instruction on the state at dispatch, and the instruction's branch says where `pc`
goes. -/
theorem programCounterAfterEachInstruction : Obligations.ProgramCounterAfterEachInstruction := by
  unfold Obligations.ProgramCounterAfterEachInstruction
  refine ⟨fun s t op i hfetch hd hstep => ?_, fun s addr n haddr => ?_, fun s n => command_runFromStart_hardware⟩
  · have hpc := atDispatch_pc_toNat hfetch
    have hexec := step_of_fetches_decode hfetch hd
    refine ⟨hpc, hexec, ?_⟩
    rw [hexec] at hstep
    cases i with
    | halt =>
      rw [exec_halt] at hstep
      cases hstep; exact hpc
    | ret =>
      intro k hk
      rcases exec_ret_cases hstep with ⟨hempty, -⟩ | ⟨-, rfl⟩
      · exact absurd (hk.trans hempty) (Nat.succ_ne_zero _)
      · have hslot : k = ⟨s.sp.val - 1, by omega⟩ := Fin.ext (by simp only; omega)
        simp [hslot]
    | call nnn =>
      intro hroom
      rcases exec_call_cases hstep with ⟨hfull, -⟩ | ⟨-, rfl⟩
      · exact absurd hfull hroom.ne
      · exact callTarget_toNat nnn
    | add x y =>
      rw [exec_add] at hstep
      cases hstep; exact hpc
  · refine ⟨_, command_setProgramCounter_of_le haddr, ?_⟩
    simp only [setPc_pc, BitVec.toNat_ofNat]; omega

/-- Settles O34: register 15 holds the carry whatever `x` is, and both operands are the values before the ADD. -/
theorem addWithTheFlagRegisterAsOperand : Obligations.AddWithTheFlagRegisterAsOperand := by
  unfold Obligations.AddWithTheFlagRegisterAsOperand
  refine ⟨fun r => ⟨decodeWord_encode_add 15 r, decodeWord_encode_add r 15⟩, fun r s => ⟨?_, fun hr => ?_⟩⟩
  · have hreg := exec_add_reg (exec_add 15 r s)
    refine ⟨_, exec_add 15 r s, ?_, fun i hi => ?_⟩
    · rw [hreg, if_pos rfl, addCarry_toNat]
    · rw [hreg, if_neg hi, if_neg hi]
  · have hreg := exec_add_reg (exec_add r 15 s)
    refine ⟨_, exec_add r 15 s, ?_, ?_⟩
    · rw [hreg, if_neg hr, if_pos rfl, addResult_toNat, addSum]
    · rw [hreg, if_pos rfl, addCarry_toNat]

/-- Settles O35: the control instructions carry the registers along, ADD's writes are functions of its two operands,
and Load and SetProgramCounter write another field. -/
theorem onlyAddTouchesGeneralRegisters : Obligations.OnlyAddTouchesGeneralRegisters := by
  unfold Obligations.OnlyAddTouchesGeneralRegisters
  refine ⟨fun i s t v hi h => exec_control_ignores_regs hi h v, fun x y s t u s' hx hy ht hu => ?_, fun s i => rfl,
    fun s t n addr bytes r h => (load_or_setProgramCounter_keeps_regs_sp h).1⟩
  have htreg := exec_add_reg ht
  have hureg := exec_add_reg hu
  rw [hx, hy] at hureg
  refine ⟨?_, ?_, fun i hi => ?_⟩
  · rw [htreg, hureg, if_pos rfl, if_pos rfl]
  · rw [htreg, hureg, if_pos rfl, if_pos rfl]
  · obtain ⟨hix, hi15⟩ : i ≠ x ∧ i ≠ 15 := by simpa using hi
    rw [htreg, if_neg hi15, if_neg hix]

/-- Settles O38: a step that moves `sp` executed an instruction, which is a CALL or a RET on the branch that moves it;
on the other branch each faults. -/
theorem stackPointerMovesByCallAndRetOnly : Obligations.StackPointerMovesByCallAndRetOnly := by
  unfold Obligations.StackPointerMovesByCallAndRetOnly
  refine ⟨fun s t h => ⟨Nat.le_of_lt_succ t.sp.isLt, fun hmoved => ?_⟩, fun s t op hfetch hstep => ⟨?_, ?_⟩,
    fun s t n addr bytes r h => (load_or_setProgramCounter_keeps_regs_sp h).2, rfl, fun s => rfl⟩
  · obtain ⟨op, i, hfetch, hd, hexec⟩ := stepWith_moves_sp h hmoved
    refine ⟨op, hfetch, ?_⟩
    rcases exec_moves_sp hexec hmoved with ⟨nnn, rfl, hroom, hup⟩ | ⟨rfl, hdown⟩
    · exact .inl ⟨nnn, hd, hroom, hup⟩
    · exact .inr ⟨hd, hdown⟩
  · intro nnn hd
    rw [step_of_fetches_decode hfetch hd] at hstep
    rcases exec_call_cases hstep with ⟨hfull, rfl⟩ | ⟨hroom, rfl⟩
    · exact ⟨fun hroom => absurd hfull hroom.ne, fun _ => ⟨rfl, rfl⟩⟩
    · exact ⟨fun _ => rfl, fun hfull => absurd hfull hroom.ne⟩
  · intro hd
    rw [step_of_fetches_decode hfetch hd] at hstep
    rcases exec_ret_cases hstep with ⟨hempty, rfl⟩ | ⟨hpos, rfl⟩
    · exact ⟨fun hpos => absurd hempty hpos.ne', fun _ => ⟨rfl, rfl⟩⟩
    · exact ⟨fun _ => Nat.sub_add_cancel hpos, fun hempty => absurd hempty hpos.ne'⟩

end Sys2Proof.Proofs
end

section
/-! Fetches and single-byte accesses by address: a fetch whose second byte is outside memory faults (R64), an accepted
Load is its write, and a byte just written is what a read and the host's inspection give (R41, R98, R103). -/

namespace Sys2Proof.Machine

variable {cfg : Config} {s : State} {addr : Nat}

theorem readByte_of_lt (h : addr < memSize) : s.readByte addr = some (Memory.read s.mem addr) :=
  readByte_eq_some.mpr ⟨h, rfl⟩

theorem stepWith_of_fetch_outside (hok : s.fault.kind = .none) (hout : memSize ≤ s.pc.toNat + 1) :
    stepWith cfg s = .next ((s.setExecState .running).raise .outOfBoundsAddress 0#16) := by
  have hgate := (faulted_eq_false s).mpr hok
  have hread : s.readWord s.pc.toNat = none := readWord_eq_none.mpr hout
  rcases stepWith_cases cfg s with ⟨hf, -⟩ | ⟨-, -, hs⟩ | ⟨-, ⟨op, hr⟩, -⟩ | ⟨op, ⟨-, hr, -⟩, -⟩
  · exact absurd hf (by simp [hgate])
  · exact hs
  · exact absurd hr (by simp [hread])
  · exact absurd hr (by simp [hread])

theorem load_of_fits {bytes : List Byte} (hfree : cfg.reservedEnd < addr) (hfits : addr + bytes.length ≤ memSize) :
    load cfg addr bytes s = (s.setMem (Memory.writeBytes addr bytes s.mem), .ok) := by
  rcases load_cases cfg addr bytes s with ⟨hrefused, -⟩ | ⟨-, -, e⟩
  · omega
  · exact e

theorem readByte_setMem_write_same {b : Byte} (hwf : Memory.wf s.mem = true) (haddr : addr < memSize) :
    (s.setMem (Memory.write addr b s.mem)).readByte addr = some b :=
  readByte_eq_some.mpr ⟨haddr, Memory.read_write_same hwf addr b⟩

theorem inspect_mem_of_readByte {b : Byte} (h : s.readByte addr = some b) : inspect (.mem addr) s = .ok b.toNat := by
  simp only [inspect, h]

end Sys2Proof.Machine
end

section
namespace Sys2Proof.Proofs

open Sys2Proof.Machine

/-- Settles O13: every read asks only that its bytes lie in memory, and the step whose fetch does not meet that
faults. -/
theorem fetchNeedsNoAlignment : Obligations.FetchNeedsNoAlignment := by
  unfold Obligations.FetchNeedsNoAlignment
  refine ⟨fun s a ha => ?_, fun s hok hout => ?_, fun s addr b hfree haddr hwf => ?_⟩
  · have hinside : a + 1 < memSize := Nat.lt_succ_of_le ha
    have hfirst := readByte_of_lt (s := s) (Nat.lt_of_succ_lt hinside)
    have hsecond := readByte_of_lt (s := s) hinside
    exact ⟨_, _, hfirst, hsecond, readWord_of_bytes hfirst hsecond⟩
  · exact ⟨_, stepWith_of_fetch_outside hok hout, rfl⟩
  · have hload : load Config.hardware addr [b] s = (s.setMem (Memory.write addr b s.mem), .ok) :=
      load_of_fits hfree (Nat.succ_le_succ haddr)
    have hread := readByte_setMem_write_same (b := b) hwf (Nat.lt_succ_of_le haddr)
    exact ⟨_, hload, hread, inspect_mem_of_readByte hread⟩

end Sys2Proof.Proofs
end

section
/-! The opcode map read through the four fields of a word: the mask test of a row is a test of each field (R53, R56),
and the decoder goes through the rows in their order. -/

namespace Sys2Proof.Laws

variable {op mask pattern : Word}

/-- A word meets a mask and match exactly when each field meets that field of them. -/
theorem and_eq_iff_fields :
    op &&& mask = pattern ↔
      fieldC op &&& fieldC mask = fieldC pattern ∧ fieldX op &&& fieldX mask = fieldX pattern ∧
      fieldY op &&& fieldY mask = fieldY pattern ∧ fieldD op &&& fieldD mask = fieldD pattern := by
  simp only [fieldC, fieldX, fieldY, fieldD, ← BitVec.extractLsb'_and]
  exact ⟨fun h => by simp only [h, and_self], fun ⟨hc, hx, hy, hd⟩ => word_eq_of_fields hc hx hy hd⟩

theorem selects_iff {r : OpcodeRow} : r.selects op = true ↔ op &&& r.mask = r.pattern := decide_eq_true_iff

theorem nibble_and_all (n : Nibble) : n &&& 0xF#4 = n := BitVec.and_allOnes

theorem rowHalt_selects_iff :
    rowHalt.selects op = true ↔ fieldC op = 0x0#4 ∧ fieldX op = 0x0#4 ∧ fieldY op = 0x0#4 ∧ fieldD op = 0x0#4 := by
  rw [selects_iff, and_eq_iff_fields]
  change fieldC op &&& 0xF#4 = 0x0#4 ∧ fieldX op &&& 0xF#4 = 0x0#4 ∧ fieldY op &&& 0xF#4 = 0x0#4 ∧
    fieldD op &&& 0xF#4 = 0x0#4 ↔ _
  simp only [nibble_and_all]

theorem rowRet_selects_iff :
    rowRet.selects op = true ↔ fieldC op = 0x0#4 ∧ fieldX op = 0x0#4 ∧ fieldY op = 0xE#4 ∧ fieldD op = 0xE#4 := by
  rw [selects_iff, and_eq_iff_fields]
  change fieldC op &&& 0xF#4 = 0x0#4 ∧ fieldX op &&& 0xF#4 = 0x0#4 ∧ fieldY op &&& 0xF#4 = 0xE#4 ∧
    fieldD op &&& 0xF#4 = 0xE#4 ↔ _
  simp only [nibble_and_all]

theorem rowCall_selects_iff : rowCall.selects op = true ↔ fieldC op = 0x2#4 := by
  rw [selects_iff, and_eq_iff_fields]
  change fieldC op &&& 0xF#4 = 0x2#4 ∧ fieldX op &&& 0x0#4 = 0x0#4 ∧ fieldY op &&& 0x0#4 = 0x0#4 ∧
    fieldD op &&& 0x0#4 = 0x0#4 ↔ _
  simp only [nibble_and_all, BitVec.and_zero, and_self, and_true]

theorem rowAdd_selects_iff : rowAdd.selects op = true ↔ fieldC op = 0x8#4 ∧ fieldD op = 0x4#4 := by
  rw [selects_iff, and_eq_iff_fields]
  change fieldC op &&& 0xF#4 = 0x8#4 ∧ fieldX op &&& 0x0#4 = 0x0#4 ∧ fieldY op &&& 0x0#4 = 0x0#4 ∧
    fieldD op &&& 0xF#4 = 0x4#4 ↔ _
  simp only [nibble_and_all, BitVec.and_zero, true_and]

/-- The decoder by rows: the first row that selects the word, or none. -/
theorem decodeWord_eq_rows (op : Word) :
    decodeWord op =
      if rowHalt.selects op = true then .ok .halt
      else if rowRet.selects op = true then .ok .ret
      else if rowCall.selects op = true then .ok (.call (fieldNNN op))
      else if rowAdd.selects op = true then .ok (.add (regOfNibble (fieldX op)) (regOfNibble (fieldY op)))
      else .error (.unimplementedOpcode op) := by
  simp only [decodeWord, rowHalt_selects_iff, rowRet_selects_iff, rowCall_selects_iff, rowAdd_selects_iff]

/-- A word is refused, with the word itself, exactly when no row selects it (R58). -/
theorem decodeWord_eq_error_iff :
    decodeWord op = .error (.unimplementedOpcode op) ↔ ∀ r ∈ opcodeTable, r.selects op = false := by
  rw [decodeWord_eq_rows]
  split_ifs with hhalt hret hcall hadd <;> simp [opcodeTable, *]

end Sys2Proof.Laws
end

section
/-! The decoder is the inverse of the encoder (R53, R56, R59): the word of an instruction with operands by its fields,
and which words decode to an instruction. -/

namespace Sys2Proof.Laws

variable {op : Word}

@[simp] theorem fieldC_encode_call (nnn : Addr12) : fieldC (encode (.call nnn)) = 0x2#4 := by
  apply BitVec.eq_of_toNat_eq
  have := nnn.isLt
  rw [fieldC_toNat, encode_call_toNat, BitVec.toNat_ofNat]; omega

@[simp] theorem fieldNNN_encode_call (nnn : Addr12) : fieldNNN (encode (.call nnn)) = nnn := by
  apply BitVec.eq_of_toNat_eq
  have := nnn.isLt
  rw [fieldNNN_toNat, encode_call_toNat]; omega

/-- The words of CALL are those with its `c`, each with the address it holds. -/
theorem encode_call_eq_iff {nnn : Addr12} : encode (.call nnn) = op ↔ fieldC op = 0x2#4 ∧ nnn = fieldNNN op := by
  constructor
  · rintro rfl
    exact ⟨fieldC_encode_call nnn, (fieldNNN_encode_call nnn).symm⟩
  · rintro ⟨hc, rfl⟩
    apply BitVec.eq_of_toNat_eq
    have hc := congrArg BitVec.toNat hc
    rw [fieldC_toNat, BitVec.toNat_ofNat] at hc
    rw [encode_call_toNat, fieldNNN_toNat]; omega

/-- The words of ADD are those with its `c` and `d`, each with the registers it names. -/
theorem encode_add_eq_iff {x y : RegIndex} :
    encode (.add x y) = op ↔
      (fieldC op = 0x8#4 ∧ fieldD op = 0x4#4) ∧ x = regOfNibble (fieldX op) ∧ y = regOfNibble (fieldY op) := by
  constructor
  · rintro rfl
    simp
  · rintro ⟨⟨hc, hd⟩, rfl, rfl⟩
    exact word_eq_of_fields (by simp [hc]) (by simp) (by simp) (by simp [hd])

theorem decodeWord_encode (i : Instr) : decodeWord (encode i) = .ok i := by
  cases i with
  | halt => rfl
  | ret => rfl
  | call nnn => simp [decodeWord]
  | add x y => exact decodeWord_encode_add x y

theorem encode_of_decodeWord {i : Instr} (h : decodeWord op = .ok i) : encode i = op := by
  rw [decodeWord_eq_rows] at h
  split_ifs at h with hhalt hret hcall hadd <;> cases h
  · obtain ⟨hc, hx, hy, hd⟩ := rowHalt_selects_iff.mp hhalt
    exact word_eq_of_fields hc.symm hx.symm hy.symm hd.symm
  · obtain ⟨hc, hx, hy, hd⟩ := rowRet_selects_iff.mp hret
    exact word_eq_of_fields hc.symm hx.symm hy.symm hd.symm
  · exact encode_call_eq_iff.mpr ⟨rowCall_selects_iff.mp hcall, rfl⟩
  · exact encode_add_eq_iff.mpr ⟨rowAdd_selects_iff.mp hadd, rfl, rfl⟩

/-- Each instruction is one word and no other. -/
theorem decodeWord_eq_ok_iff {i : Instr} : decodeWord op = .ok i ↔ encode i = op :=
  ⟨encode_of_decodeWord, fun h => h ▸ decodeWord_encode i⟩

theorem decodeBytes_encodeBytes (i : Instr) (rest : List Byte) :
    decodeBytes (encodeBytes i ++ rest) = .ok (i, rest) := by
  simp only [encodeBytes, List.cons_append, List.nil_append, decodeBytes, wordOfBytes_high_low, decodeWord_encode]

end Sys2Proof.Laws
end

section
/-! What the assembler answers for an instruction with plain numbers for operands: its word where they fit their
fields, a refusal where they do not (R55, R60). -/

namespace Sys2Proof.Machine

open Sys2Proof.Laws

variable {a x y : Nat}

theorem sourceWord_of_toInstr {i : SourceInstr} {j : Instr} (h : i.toInstr = some j) :
    sourceWord i = .ok (encode j) := by
  simp only [sourceWord, h]

theorem sourceWord_of_not_wellFormed {i : SourceInstr} (h : i.wellFormed = false) :
    sourceWord i = .error (.operandTooLarge i) := by
  have hnone : i.toInstr = none := Option.not_isSome_iff_eq_none.mp (by simp [toInstr_isSome, h])
  simp only [sourceWord, hnone]

theorem sourceWord_call_of_le (ha : a ≤ 0xFFF) : sourceWord (.call a) = .ok (BitVec.ofNat 16 (0x2000 + a)) := by
  have hinstr : (SourceInstr.call a).toInstr = some (.call (BitVec.ofNat 12 a)) := if_pos ha
  rw [sourceWord_of_toInstr hinstr]
  refine congrArg Except.ok (BitVec.eq_of_toNat_eq ?_)
  rw [encode_call_toNat, BitVec.toNat_ofNat, BitVec.toNat_ofNat]; omega

theorem sourceWord_add_of_le (hx : x ≤ 15) (hy : y ≤ 15) :
    sourceWord (.add x y) = .ok (BitVec.ofNat 16 (0x8004 + x * 256 + y * 16)) := by
  have hfit : x < 16 ∧ y < 16 := ⟨Nat.lt_succ_of_le hx, Nat.lt_succ_of_le hy⟩
  have hinstr : (SourceInstr.add x y).toInstr = some (.add ⟨x, hfit.1⟩ ⟨y, hfit.2⟩) := dif_pos hfit
  rw [sourceWord_of_toInstr hinstr]
  refine congrArg Except.ok (BitVec.eq_of_toNat_eq ?_)
  simp only [encode_add_toNat, BitVec.toNat_ofNat]; omega

end Sys2Proof.Machine
end

section
namespace Sys2Proof.Proofs

open Sys2Proof.Machine Sys2Proof.Laws

/-- Settles O6: the fields of an encoded instruction are its opcode nibbles and its operands, and its two bytes are
its word. -/
theorem decodeOfEncodeIsTheInstruction : Obligations.DecodeOfEncodeIsTheInstruction := by
  unfold Obligations.DecodeOfEncodeIsTheInstruction
  exact fun i => ⟨decodeWord_encode i, decodeBytes_encodeBytes i⟩

/-- Settles O7: each branch of the decoder fixes the word's fields to those of the instruction it answers. -/
theorem encodeOfDecodeIsTheWord : Obligations.EncodeOfDecodeIsTheWord := by
  unfold Obligations.EncodeOfDecodeIsTheWord
  exact fun op i h => encode_of_decodeWord h

/-- Settles O3: fields and bytes are quotients and remainders of the word as a number. -/
theorem fieldsAreTheNibblesOfTheBytes : Obligations.FieldsAreTheNibblesOfTheBytes := by
  unfold Obligations.FieldsAreTheNibblesOfTheBytes
  simp only [fieldC_toNat, fieldX_toNat, fieldY_toNat, fieldD_toNat, fieldNNN_toNat, wordOfBytes_toNat]
  refine ⟨fun hi lo => ?_, fun op => ?_⟩
  · have := hi.isLt
    have := lo.isLt
    omega
  · omega

/-- Settles O4: a word decodes to an instruction exactly when it is that instruction's word, which its row and its
operand fields say; it is refused exactly when no row selects it. -/
theorem decodeFollowsTheOpcodeMap : Obligations.DecodeFollowsTheOpcodeMap := by
  unfold Obligations.DecodeFollowsTheOpcodeMap
  intro op
  have hall : op &&& 0xFFFF#16 = op := BitVec.and_allOnes
  refine ⟨?_, ?_, fun nnn => ?_, fun x y => ?_, decodeWord_eq_error_iff⟩
  · rw [decodeWord_eq_ok_iff, hall, eq_comm]; rfl
  · rw [decodeWord_eq_ok_iff, hall, eq_comm]; rfl
  · rw [decodeWord_eq_ok_iff, encode_call_eq_iff, ← rowCall_selects_iff, selects_iff]; rfl
  · rw [decodeWord_eq_ok_iff, encode_add_eq_iff, ← rowAdd_selects_iff, selects_iff, Fin.ext_iff, Fin.ext_iff]; rfl

/-- Settles O8: each of the first five words is its instruction's; the last selects no row. -/
theorem writtenOutWordsDecode : Obligations.WrittenOutWordsDecode := by
  unfold Obligations.WrittenOutWordsDecode
  exact ⟨decodeWord_encode .halt, decodeWord_encode .ret, decodeWord_encode (.call 0x300#12),
    decodeWord_encode (.call 0xFFF#12), decodeWord_encode (.add 14 3), decodeWord_eq_error_iff.mpr (by decide)⟩

/-- Settles O59: an operand fits its field exactly when the instruction is well-formed. -/
theorem assemblerRefusesOperandsThatDoNotFit : Obligations.AssemblerRefusesOperandsThatDoNotFit := by
  unfold Obligations.AssemblerRefusesOperandsThatDoNotFit
  refine ⟨fun a => ⟨sourceWord_call_of_le, fun ha => sourceWord_of_not_wellFormed ?_⟩,
    fun x y => ⟨sourceWord_add_of_le, fun hxy => sourceWord_of_not_wellFormed ?_⟩⟩
  · simpa [SourceInstr.wellFormed] using ha
  · simp only [SourceInstr.wellFormed, Bool.and_eq_false_iff, decide_eq_false_iff_not]; omega

end Sys2Proof.Proofs
end

section
/-! The addresses the machine holds stay in memory (R32, R64, R66, R72, R73): what each instruction, the dispatch of
any word and the step leave in `pc` and the slots. -/

namespace Sys2Proof.Machine

variable {cfg : Config} {s t : State} {op : Word}

theorem exec_keeps_addressesInMemory {i : Instr} (hs : s.addressesInMemory) (h : exec i s = .next t) :
    t.addressesInMemory := by
  obtain ⟨hpc, hslots⟩ := hs
  cases i with
  | halt =>
    rw [exec_halt] at h
    cases h; exact ⟨hpc, hslots⟩
  | ret =>
    rcases exec_ret_cases h with ⟨-, rfl⟩ | ⟨hpos, rfl⟩
    · exact ⟨hpc, hslots⟩
    · exact ⟨hslots _, hslots⟩
  | call nnn =>
    rcases exec_call_cases h with ⟨-, rfl⟩ | ⟨hroom, rfl⟩
    · exact ⟨hpc, hslots⟩
    · refine ⟨(callTarget_toNat nnn).trans_lt nnn.isLt, fun j => ?_⟩
      rw [slot_setPc, slot_setSp, slot_setSlot]
      split_ifs
      · exact hpc
      · exact hslots j
  | add x y =>
    rw [exec_add] at h
    cases h; exact ⟨hpc, hslots⟩

theorem dispatch_keeps_addressesInMemory (hs : s.addressesInMemory) (h : dispatch op s = .next t) :
    t.addressesInMemory := by
  cases hd : decodeWord op with
  | ok i => exact exec_keeps_addressesInMemory hs (dispatch_of_decode hd s ▸ h)
  | error e =>
    rw [dispatch_of_error hd] at h
    cases h; exact hs

/-- The strict advance bound of this hardware keeps the address of the next word in memory (R66). -/
theorem atDispatch_addressesInMemory (hfetch : s.fetches Config.hardware op)
    (hslots : ∀ k, (s.slot k).toNat < memSize) : s.atDispatch.addressesInMemory := by
  obtain ⟨-, -, hbound⟩ := fetches_hardware.mp hfetch
  exact ⟨(atDispatch_pc_toNat hfetch).trans_lt hbound, hslots⟩

theorem step_keeps_addressesInMemory (hs : s.addressesInMemory) (h : step s = .next t) : t.addressesInMemory := by
  unfold step at h
  rcases stepWith_cases Config.hardware s with ⟨-, hstep⟩ | ⟨-, -, hstep⟩ | ⟨-, -, -, hstep⟩ | ⟨op, hfetch, hstep⟩ <;>
    rw [hstep] at h
  case inr.inr.inr => exact dispatch_keeps_addressesInMemory (atDispatch_addressesInMemory hfetch hs.2) h
  all_goals cases h; exact hs

end Sys2Proof.Machine
end

section
/-! The ways of a step that dispatch nothing (R63, R66), and the state an instruction sees, in numbers. With
`stepWith_of_fetch_outside` and `stepWith_of_fetches` they give the step from each check's outcome. -/

namespace Sys2Proof.Machine

variable {cfg : Config} {s : State}

theorem stepWith_of_faulted (h : s.fault.kind ≠ .none) : stepWith cfg s = .next s :=
  if_pos ((faulted_eq_true s).mpr h)

theorem advanceInBound_iff {n : Nat} :
    advanceInBound cfg n = true ↔ if cfg.pcLimitInclusive then n ≤ memSize else n < memSize := by
  unfold advanceInBound
  split_ifs <;> exact decide_eq_true_iff

/-- The advance bound needs no fetch to have passed: a fetch that fails before it raises the same fault. -/
theorem stepWith_of_advance_outside (hok : s.fault.kind = .none)
    (hbound : advanceInBound cfg (s.pc.toNat + insnBytes) = false) :
    stepWith cfg s = .next ((s.setExecState .running).raise .outOfBoundsAddress 0#16) := by
  have hgate := (faulted_eq_false s).mpr hok
  rcases stepWith_cases cfg s with ⟨hf, -⟩ | ⟨-, -, hs⟩ | ⟨-, -, -, hs⟩ | ⟨op, ⟨-, -, ha⟩, -⟩
  · exact absurd hf (by simp [hgate])
  · exact hs
  · exact hs
  · exact absurd ha (by simp [hbound])

theorem atDispatch_of_pc {a : Nat} (h : s.pc.toNat = a) :
    s.atDispatch = { s with execState := .running, pc := BitVec.ofNat 16 (a + 2) } := by
  rw [State.atDispatch, h]; rfl

end Sys2Proof.Machine
end

section
/-! A step's only memory access is its fetch (R65): with another memory that gives the same word at `pc`, the step does
the same to everything else. -/

namespace Sys2Proof.Machine

variable {cfg : Config} {s t : State} {m : Memory}

theorem exec_ignores_mem {i : Instr} (h : exec i s = .next t) (m : Memory) :
    exec i (s.setMem m) = .next (t.setMem m) := by
  cases i with
  | halt =>
    rw [exec_halt] at h
    cases h; rfl
  | ret =>
    rcases exec_ret_cases h with ⟨hempty, rfl⟩ | ⟨hpos, rfl⟩
    · exact exec_ret_of_empty (s := s.setMem m) hempty
    · exact exec_ret_of_pos (s := s.setMem m) hpos
  | call nnn =>
    rcases exec_call_cases h with ⟨hfull, rfl⟩ | ⟨hroom, rfl⟩
    · exact exec_call_of_full (s := s.setMem m) hfull nnn
    · exact exec_call_of_room (s := s.setMem m) hroom nnn
  | add x y =>
    rw [exec_add] at h
    cases h; rfl

theorem dispatch_ignores_mem {op : Word} (h : dispatch op s = .next t) (m : Memory) :
    dispatch op (s.setMem m) = .next (t.setMem m) := by
  cases hd : decodeWord op with
  | ok i =>
    rw [dispatch_of_decode hd] at h ⊢
    exact exec_ignores_mem h m
  | error e =>
    rw [dispatch_of_error hd] at h ⊢
    cases h; rfl

theorem readWord_setMem_of_agree {a : Nat}
    (h : a + 1 < memSize → Memory.read m a = Memory.read s.mem a ∧ Memory.read m (a + 1) = Memory.read s.mem (a + 1)) :
    (s.setMem m).readWord a = s.readWord a := by
  unfold State.readWord
  split_ifs with hin
  · obtain ⟨hhigh, hlow⟩ := h hin
    rw [setMem_mem, hhigh, hlow]
  · rfl

theorem stepWith_ignores_mem (h : stepWith cfg s = .next t)
    (hfetch : s.fault.kind = .none → (s.setMem m).readWord s.pc.toNat = s.readWord s.pc.toNat) :
    stepWith cfg (s.setMem m) = .next (t.setMem m) := by
  rcases stepWith_cases cfg s with ⟨hf, hs⟩ | ⟨hf, hr, hs⟩ | ⟨hf, ⟨op, hr⟩, ha, hs⟩ | ⟨op, ⟨hf, hr, ha⟩, hs⟩ <;>
    rw [hs] at h
  · cases h
    exact stepWith_of_faulted (s := s.setMem m) ((faulted_eq_true s).mp hf)
  all_goals
    have hok := (faulted_eq_false s).mp hf
    rw [← hfetch hok] at hr
  · cases h
    exact stepWith_of_fetch_outside (s := s.setMem m) hok (readWord_eq_none.mp hr)
  · cases h
    exact stepWith_of_advance_outside (s := s.setMem m) hok ha
  · exact (stepWith_of_fetches (s := s.setMem m) ⟨hf, hr, ha⟩).trans (dispatch_ignores_mem h m)

end Sys2Proof.Machine
end

section
/-! Instructions by their bytes (R42, R59): what two bytes decode to, and the word read where an encoded instruction's
bytes stand or were just written. -/

namespace Sys2Proof.Machine

open Sys2Proof.Laws

variable {s : State} {m : Memory} {a : Nat}

theorem decodeWord_of_decodeBytes {b0 b1 : Byte} {i : Instr} {rest : List Byte}
    (h : decodeBytes (b0 :: b1 :: rest) = .ok (i, rest)) : decodeWord (wordOfBytes b0 b1) = .ok i := by
  cases hd : decodeWord (wordOfBytes b0 b1) with
  | ok j =>
    simp only [decodeBytes, hd] at h
    cases h; rfl
  | error e =>
    simp only [decodeBytes, hd] at h
    cases h

theorem readWord_of_encodeBytes {i : Instr} (hin : a + 1 < memSize) (hhigh : Memory.read s.mem a = highByte (encode i))
    (hlow : Memory.read s.mem (a + 1) = lowByte (encode i)) : s.readWord a = some (encode i) :=
  readWord_eq_some.mpr ⟨hin, by rw [hhigh, hlow, wordOfBytes_high_low]⟩

theorem Memory.read_writeBytes_pair (hwf : Memory.wf m = true) (hin : a + 1 < memSize) (b0 b1 : Byte) :
    Memory.read (Memory.writeBytes a [b0, b1] m) a = b0 ∧ Memory.read (Memory.writeBytes a [b0, b1] m) (a + 1) = b1 := by
  have hread := Memory.read_writeBytes (bs := [b0, b1]) (a := a) hwf hin
  exact ⟨by simp [hread], by simp [hread]⟩

end Sys2Proof.Machine
end

section
/-! The boot sequence (R107): one command of a session at a time, and the state that Reset, Load and SetProgramCounter
leave to the first Step. -/

namespace Sys2Proof.Machine

variable {cfg : Config} {n addr : Nat} {s t u : State} {bytes : List Byte}

theorem session_cons {c : Command} {cs : List Command} {r : Response} {rs : List Response}
    (hc : command cfg n c s = some (t, r)) (hcs : session cfg n cs t = some (u, rs)) :
    session cfg n (c :: cs) s = some (u, r :: rs) := by
  simp only [session, hc, hcs]

/-- The state a program is booted in: the bytes over the reset memory, `pc` at the first of them, the rest as reset
leaves it. -/
def State.booted (addr : Nat) (bytes : List Byte) : State :=
  (State.reset.setMem (Memory.writeBytes addr bytes State.reset.mem)).setPc (BitVec.ofNat 16 addr)

theorem booted_pc_toNat (h : addr ≤ 0xFFFF) : (State.booted addr bytes).pc.toNat = addr := by
  simp only [State.booted, setPc_pc, BitVec.toNat_ofNat]; omega

theorem session_boot_step (hfree : cfg.reservedEnd < addr) (hfits : addr + bytes.length ≤ memSize)
    (hstep : stepWith cfg (State.booted addr bytes) = .next t) (s : State) :
    session cfg n [.reset, .load addr bytes, .setProgramCounter addr, .step] s =
      some (t, [.ok, .ok, .ok, responseOf t.fault]) := by
  have haddr : addr ≤ 0xFFFF := by rw [memSize_eq] at hfits; omega
  exact session_cons rfl (session_cons (congrArg some (load_of_fits hfree hfits))
    (session_cons (command_setProgramCounter_of_le haddr) (session_cons (stepCommand_of_next hstep) rfl)))

/-- The two bytes of a booted instruction stand where they were loaded. -/
theorem booted_mem_read_encode {i : Instr} (hin : addr + 1 < memSize) :
    Memory.read (State.booted addr (encodeBytes i)).mem addr = highByte (encode i) ∧
    Memory.read (State.booted addr (encodeBytes i)).mem (addr + 1) = lowByte (encode i) :=
  Memory.read_writeBytes_pair Memory.wf_reset hin _ _

theorem booted_fetches_encode {i : Instr} (hin : addr + 2 < memSize) :
    (State.booted addr (encodeBytes i)).fetches Config.hardware (encode i) := by
  rw [memSize_eq] at hin
  have hpc : (State.booted addr (encodeBytes i)).pc.toNat = addr := booted_pc_toNat (by omega)
  obtain ⟨hhigh, hlow⟩ := booted_mem_read_encode (i := i) (Nat.lt_of_succ_lt hin)
  refine fetches_hardware.mpr ⟨rfl, ?_, ?_⟩
  · rw [hpc]
    exact readWord_of_encodeBytes (Nat.lt_of_succ_lt hin) hhigh hlow
  · rwa [hpc]

end Sys2Proof.Machine
end

section
namespace Sys2Proof.Proofs

open Sys2Proof.Machine Sys2Proof.Laws

/-- Settles O54: RET takes `pc` from a slot, CALL stores a `pc` the advance bound has passed and jumps to a 12-bit
address; every other way changes no slot and leaves `pc` as it was or as the advance put it. -/
theorem stepKeepsAddressesInMemory : Obligations.StepKeepsAddressesInMemory := by
  unfold Obligations.StepKeepsAddressesInMemory
  exact fun s t hs h => step_keeps_addressesInMemory hs h

/-- Settles O12: the fetched word is a function of its two bytes, and past the fetch a step carries memory along. -/
theorem stepReadsOnlyTheFetchedWord : Obligations.StepReadsOnlyTheFetchedWord := by
  unfold Obligations.StepReadsOnlyTheFetchedWord
  refine ⟨fun s w => ?_, fun s m hagree => ?_⟩
  · rw [readWord_eq_some, ← BitVec.toNat_inj, wordOfBytes_toNat, eq_comm (b := w.toNat)]
  · obtain ⟨t, ht⟩ := stepWith_next Config.hardware s
    have hfetch := fun hok => readWord_setMem_of_agree (hagree hok)
    exact ⟨t, ht, stepWith_keeps_mem ht, stepWith_ignores_mem ht hfetch⟩

/-- Settles O21: past the fetch, the advance bound decides between the dispatch and the fault. -/
theorem advanceBoundRaisesOutOfBounds : Obligations.AdvanceBoundRaisesOutOfBounds := by
  unfold Obligations.AdvanceBoundRaisesOutOfBounds
  refine ⟨rfl, fun cfg s op hok hread => ?_⟩
  by_cases hbound : advanceInBound cfg (s.pc.toNat + 2) = true
  · rw [if_pos (advanceInBound_iff.mp hbound)]
    refine ⟨BitVec.ofNat 16 (s.pc.toNat + 2), ?_, stepWith_of_fetches ⟨(faulted_eq_false s).mpr hok, hread, hbound⟩⟩
    obtain ⟨hin, -⟩ := readWord_eq_some.mp hread
    rw [memSize_eq] at hin
    rw [BitVec.toNat_ofNat]; omega
  · rw [if_neg (mt advanceInBound_iff.mpr hbound)]
    exact stepWith_of_advance_outside hok (Bool.eq_false_iff.mpr hbound)

/-- Settles O52: the booted state fetches the word just loaded, so its step is the loaded instruction. -/
theorem bootRunsTheLoadedInstruction : Obligations.BootRunsTheLoadedInstruction := by
  unfold Obligations.BootRunsTheLoadedInstruction
  intro s n addr i hfree hin
  obtain ⟨hhigh, hlow⟩ := booted_mem_read_encode (i := i) (Nat.lt_of_succ_lt hin)
  obtain ⟨t, ht⟩ := exec_next i (State.booted addr (encodeBytes i)).atDispatch
  have hstep : step (State.booted addr (encodeBytes i)) = .next t :=
    (step_of_fetches_decode (booted_fetches_encode hin) (decodeWord_encode i)).trans ht
  rw [atDispatch_of_pc (booted_pc_toNat (by omega))] at ht
  exact ⟨_, t, hhigh, hlow, ht, session_boot_step hfree hin.le hstep s⟩

/-- Settles O18: the two bytes are the word the step fetches, and the word decodes as they do. -/
theorem stepRunsTheDecodedInstruction : Obligations.StepRunsTheDecodedInstruction := by
  unfold Obligations.StepRunsTheDecodedInstruction
  intro s b0 b1 i hok hbound h0 h1 hdecode _
  have hfetch := fetches_hardware.mpr ⟨hok, readWord_of_bytes h0 h1, hbound⟩
  rw [step_of_fetches_decode hfetch (decodeWord_of_decodeBytes hdecode), atDispatch_of_pc rfl]

/-- Settles O19: the fault gate answers the state it was given, and Step answers its fault register. -/
theorem faultedCoreDoesNotStep : Obligations.FaultedCoreDoesNotStep := by
  unfold Obligations.FaultedCoreDoesNotStep
  intro s n hfault
  have hstep : step s = .next s := stepWith_of_faulted hfault
  exact ⟨hstep, (stepCommand_of_next hstep).trans (by rw [responseOf_of_fault hfault])⟩

/-- Settles O20: the word at an address is read exactly when its second byte lies in memory. -/
theorem fetchBoundRaisesOutOfBounds : Obligations.FetchBoundRaisesOutOfBounds := by
  unfold Obligations.FetchBoundRaisesOutOfBounds
  exact fun s hok => ⟨fun hout => stepWith_of_fetch_outside hok (Nat.succ_le_succ hout),
    fun hin => ⟨_, readWord_eq_some.mpr ⟨Nat.succ_lt_succ (Nat.lt_succ_of_le hin), rfl⟩⟩⟩

end Sys2Proof.Proofs
end

section
/-! The control instructions in the spec's own terms (R71 to R73): the state each leaves, by the slot it uses, and the
step that executes it. -/

namespace Sys2Proof.Machine

open Sys2Proof.Laws

variable {cfg : Config} {s t : State} {op : Word}

theorem exec_ret_of_pending {k : Fin 16} {n : Fin 17} (hk : k.val + 1 = s.sp.val) (hn : n.val = k.val) :
    exec .ret s = .next { s with sp := n, pc := s.slot k } := by
  have hpos : 0 < s.sp.val := hk ▸ Nat.succ_pos _
  have hslot : ⟨s.sp.val - 1, by omega⟩ = k := Fin.ext (Nat.eq_sub_of_add_eq hk).symm
  have hsp : ⟨s.sp.val - 1, by omega⟩ = n := Fin.ext ((Nat.eq_sub_of_add_eq hk).symm.trans hn.symm)
  rw [exec_ret_of_pos hpos, hslot, hsp]
  rfl

theorem exec_call_of_free {k : Fin 16} {n : Fin 17} (hk : k.val = s.sp.val) (hn : n.val = k.val + 1) (nnn : Addr12) :
    exec (.call nnn) s = .next { s with stack := s.stack.set k.val s.pc, sp := n, pc := callTarget nnn } := by
  have hroom : s.sp.val < 16 := hk ▸ k.isLt
  obtain rfl : k = ⟨s.sp.val, hroom⟩ := Fin.ext hk
  obtain rfl : n = ⟨s.sp.val + 1, Nat.succ_lt_succ hroom⟩ := Fin.ext hn
  exact exec_call_of_room hroom nnn

theorem exec_call_pushes_pc {nnn : Addr12} {k : Fin 16} (hk : k.val = s.sp.val) (h : exec (.call nnn) s = .next t) :
    t.slot k = s.pc := by
  rcases exec_call_cases h with ⟨hfull, -⟩ | ⟨hroom, rfl⟩
  · exact absurd (hk.trans hfull) k.isLt.ne
  · obtain rfl : k = ⟨s.sp.val, hroom⟩ := Fin.ext hk
    simp

/-- A word that is read lies in memory, so the advance past it does not wrap, whatever the advance bound. -/
theorem atDispatch_pc_toNat_of_readWord (h : s.readWord s.pc.toNat = some op) :
    s.atDispatch.pc.toNat = s.pc.toNat + 2 := by
  obtain ⟨hin, -⟩ := readWord_eq_some.mp h
  rw [memSize_eq] at hin
  simp only [State.atDispatch, setPc_pc, insnBytes_eq, BitVec.toNat_ofNat]
  omega

theorem stepWith_of_fetches_encode {i : Instr} (h : s.fetches cfg (encode i)) : stepWith cfg s = exec i s.atDispatch :=
  (stepWith_of_fetches h).trans (dispatch_of_decode (decodeWord_encode i) _)

/-- The word 0x2nnn as R73 writes it. -/
theorem encode_call_eq_or (nnn : Addr12) : encode (.call nnn) = 0x2000#16 ||| nnn.setWidth 16 := by
  rw [encode, BitVec.append_def]; rfl

/-- Reserved memory holds the word of HALT at every address whose two bytes lie in it (R46). -/
theorem fetches_halt_of_reservedZero (hzero : s.reservedZero Config.hardware) (hok : s.fault.kind = .none)
    (hpc : s.pc.toNat ≤ 0x1FE) : s.fetches Config.hardware (encode .halt) := by
  have hhigh := hzero s.pc.toNat (Nat.le_succ_of_le hpc)
  have hlow := hzero (s.pc.toNat + 1) (Nat.succ_le_succ hpc)
  refine fetches_hardware.mpr ⟨hok, ?_, by omega⟩
  exact readWord_of_encodeBytes (by rw [memSize_eq]; omega) hhigh hlow

end Sys2Proof.Machine
end

section
/-! What the control instructions leave unchanged (R38, R71 to R73), and calls one after another (R73, R78). -/

namespace Sys2Proof.Machine

variable {s t : State}

/-- HALT, RET and CALL touch no general register and no byte of memory. -/
theorem exec_control_frame {i : Instr} (hi : ∀ x y, i ≠ .add x y) (h : exec i s = .next t) :
    s.sameRegsBut [] t ∧ s.sameMemory t := by
  obtain ⟨hregs, -⟩ := exec_control_ignores_regs hi h s.regs
  exact ⟨fun j _ => by simp only [State.reg, hregs], sameMemory_of_mem_eq (exec_keeps_mem h)⟩

theorem execSeq_cons_of_next {i : Instr} (h : exec i s = .next t) (is : List Instr) :
    execSeq (i :: is) s = execSeq is t := by
  simp only [execSeq, h]

/-- Calls nest while there is room: each adds one to `sp` and none faults. -/
theorem execSeq_calls_of_room (targets : List Addr12) (s : State) (hroom : s.sp.val + targets.length ≤ 16) :
    ∃ t, execSeq (targets.map Instr.call) s = .next t ∧ t.sp.val = s.sp.val + targets.length ∧ t.fault = s.fault := by
  induction targets generalizing s with
  | nil => exact ⟨s, rfl, rfl, rfl⟩
  | cons nnn targets ih =>
    rw [List.length_cons] at hroom
    obtain ⟨u, hcall, hup, hkept⟩ : ∃ u, exec (.call nnn) s = .next u ∧ u.sp.val = s.sp.val + 1 ∧ u.fault = s.fault :=
      ⟨_, exec_call_of_room (by omega) nnn, rfl, rfl⟩
    obtain ⟨t, hseq, hsp, hfault⟩ := ih u (by omega)
    refine ⟨t, (execSeq_cons_of_next hcall _).trans hseq, ?_, hfault.trans hkept⟩
    rw [hsp, hup, List.length_cons]; omega

end Sys2Proof.Machine
end

section
namespace Sys2Proof.Proofs

open Sys2Proof.Machine Sys2Proof.Laws

/-- Settles O30: the branch of RET is decided by `sp`; a popped value outside memory has no word to fetch. -/
theorem retPopsTheReturnAddress : Obligations.RetPopsTheReturnAddress := by
  unfold Obligations.RetPopsTheReturnAddress
  refine fun s => ⟨fun hfetch => stepWith_of_fetches_encode (i := .ret) hfetch, fun hempty => exec_ret_of_empty hempty,
    fun k n hk hn => ⟨exec_ret_of_pending hk hn, fun hok hout => ?_⟩⟩
  have hstep := stepWith_of_fetch_outside (cfg := Config.hardware) (s := { s with sp := n, pc := s.slot k }) hok
    (Nat.le_succ_of_le hout)
  exact ⟨_, hstep, rfl, rfl⟩

/-- Settles O31: the branch of CALL is decided by `sp`; what it pushes is the `pc` of the state at dispatch, which the
fetch puts at the next word under either advance bound. -/
theorem callPushesTheReturnAddress : Obligations.CallPushesTheReturnAddress := by
  unfold Obligations.CallPushesTheReturnAddress
  refine ⟨fun nnn s => ⟨fun hfull => exec_call_of_full hfull nnn,
    fun k n hk hn => ⟨exec_call_of_free hk hn nnn, callTarget_toNat nnn⟩⟩, fun cfg s nnn hfetch => ?_⟩
  rw [← encode_call_eq_or] at hfetch
  have hexec := stepWith_of_fetches_encode hfetch
  refine ⟨hexec, fun t k hk hstep => ?_⟩
  obtain ⟨-, hread, -⟩ := hfetch
  rw [exec_call_pushes_pc (s := s.atDispatch) hk (hexec.symm.trans hstep), atDispatch_pc_toNat_of_readWord hread]

/-- Settles O36: registers and memory by the frame the three share, the other fields by the branch taken. -/
theorem controlInstructionFrames : Obligations.ControlInstructionFrames := by
  unfold Obligations.ControlInstructionFrames
  refine ⟨fun s t h => ?_, fun s t h => ?_, fun nnn s t h => ?_⟩
  · obtain ⟨hregs, hmem⟩ := exec_control_frame (by simp) h
    rw [exec_halt] at h
    cases h; exact ⟨hregs, fun _ _ => rfl, hmem, rfl, rfl, rfl⟩
  · obtain ⟨hregs, hmem⟩ := exec_control_frame (by simp) h
    rcases exec_ret_cases h with ⟨hempty, rfl⟩ | ⟨hpos, rfl⟩
    · exact ⟨hregs, fun _ _ => rfl, hmem, rfl, fun hpos => absurd hempty hpos.ne', fun _ => ⟨rfl, rfl⟩⟩
    · exact ⟨hregs, fun _ _ => rfl, hmem, rfl, fun _ => rfl, fun hempty => absurd hempty hpos.ne'⟩
  · obtain ⟨hregs, hmem⟩ := exec_control_frame (by simp) h
    rcases exec_call_cases h with ⟨hfull, rfl⟩ | ⟨hroom, rfl⟩
    · exact ⟨hregs, hmem, rfl, fun k hk => absurd (hk.trans hfull) k.isLt.ne, fun _ => ⟨fun _ _ => rfl, rfl, rfl⟩⟩
    · refine ⟨hregs, hmem, rfl, fun k hk => ⟨fun j hj => ?_, rfl⟩, fun hfull => absurd hfull hroom.ne⟩
      obtain rfl : k = ⟨s.sp.val, hroom⟩ := Fin.ext hk
      exact slot_setSlot_other s (List.ne_of_not_mem_cons hj).symm s.pc

/-- Settles O40: the calls fill the stack, and a CALL on a full stack overflows. -/
theorem sixteenCallsNestAndTheNextOverflows : Obligations.SixteenCallsNestAndTheNextOverflows := by
  unfold Obligations.SixteenCallsNestAndTheNextOverflows
  intro targets last s hfill
  obtain ⟨t, hseq, hsp, hfault⟩ := execSeq_calls_of_room targets s hfill.le
  have hfull : t.sp.val = 16 := hsp.trans hfill
  exact ⟨t, hseq, hfull, hfault, exec_call_of_full hfull last⟩

/-- Settles O29: HALT writes `state` on the state at dispatch, and reset is a fetch in reserved memory. -/
theorem haltSetsHalted : Obligations.HaltSetsHalted := by
  unfold Obligations.HaltSetsHalted
  refine ⟨exec_halt, fun s hfetch => stepWith_of_fetches_encode (i := .halt) hfetch,
    fun s hzero hok hpc => fetches_halt_of_reservedZero hzero hok hpc, ?_⟩
  exact stepWith_of_fetches_encode (i := .halt)
    (fetches_halt_of_reservedZero (fun a _ => Memory.read_reset a) rfl (by decide))

end Sys2Proof.Proofs
end

section
/-! ADD and its flag (R75, R76): each register and each other field it leaves, the word that encodes it, and the laws
of its sum and its carry. -/

namespace Sys2Proof.Machine

variable {s t : State} {x y i : RegIndex}

theorem exec_add_flag (h : exec (.add x y) s = .next t) : t.reg 15 = addCarry (s.reg x) (s.reg y) := by
  rw [exec_add_reg h, if_pos rfl]

theorem exec_add_dest (h : exec (.add x y) s = .next t) (hx : x ≠ 15) : t.reg x = addResult (s.reg x) (s.reg y) := by
  rw [exec_add_reg h, if_neg hx, if_pos rfl]

theorem exec_add_keeps_reg (h : exec (.add x y) s = .next t) (hix : i ≠ x) (hi : i ≠ 15) : t.reg i = s.reg i := by
  rw [exec_add_reg h, if_neg hi, if_neg hix]

/-- ADD writes the registers alone. -/
theorem exec_add_writes_regs (h : exec (.add x y) s = .next t) : t = { s with regs := t.regs } := by
  rw [exec_add] at h
  cases h; rfl

/-- The word 0x8xy4 as R75 writes it. -/
theorem encode_add_eq_or (x y : RegIndex) :
    encode (.add x y) = 0x8000#16 ||| BitVec.ofNat 16 x.val <<< 8 ||| BitVec.ofNat 16 y.val <<< 4 ||| 4#16 := by
  revert x y; decide

theorem addSum_comm (a b : Byte) : addSum a b = addSum b a := Nat.add_comm _ _

theorem addResult_comm (a b : Byte) : addResult a b = addResult b a := by
  rw [addResult, addSum_comm, addResult]

theorem addCarry_comm (a b : Byte) : addCarry a b = addCarry b a := by
  rw [addCarry, addSum_comm, addCarry]

/-- A sum that wraps lands below either operand, since the other is less than 256 (R76). -/
theorem addCarry_eq_one_iff (a b : Byte) : addCarry a b = 1#8 ↔ (addResult a b).toNat < a.toNat := by
  have hb := b.isLt
  have hle := addSum_le a b
  have hsum : addSum a b = a.toNat + b.toNat := rfl
  rw [addResult_toNat]
  rcases Nat.lt_or_ge (addSum a b) 256 with hlt | hge
  · rw [addCarry_of_lt hlt, Nat.mod_eq_of_lt hlt, hsum]
    exact iff_of_false (by decide) (Nat.le_add_right _ _).not_gt
  · rw [addCarry_of_le hge]
    exact iff_of_true rfl (by omega)

end Sys2Proof.Machine
end

section
namespace Sys2Proof.Proofs

open Sys2Proof.Machine

/-- Settles O32: each register by what ADD leaves in it, and the step by the word that encodes ADD. -/
theorem addWritesTheSumThenTheCarry : Obligations.AddWritesTheSumThenTheCarry := by
  unfold Obligations.AddWritesTheSumThenTheCarry
  refine ⟨fun x y s => ?_, fun x y s hfetch => ?_⟩
  · obtain ⟨t, h⟩ := exec_next (.add x y) s
    refine ⟨t, h, fun hx => ?_, exec_add_flag h, fun i => exec_add_keeps_reg h, exec_add_writes_regs h⟩
    rw [exec_add_dest h hx, addResult_toNat, addSum]
  · rw [← encode_add_eq_or] at hfetch
    exact stepWith_of_fetches_encode hfetch

/-- Settles O33: the sum and the carry are symmetric in the operands, and the carry is the wrap of the sum. -/
theorem addArithmeticLaws : Obligations.AddArithmeticLaws := by
  unfold Obligations.AddArithmeticLaws
  intro x y s t u hx hy ht hu
  refine ⟨?_, ?_, ?_, fun hxy => ⟨exec_add_keeps_reg ht hxy.symm hy, exec_add_keeps_reg hu hxy hx⟩, ?_⟩
  · rw [exec_add_flag ht, exec_add_dest ht hx]
    exact addCarry_eq_one_iff _ _
  · rw [exec_add_dest ht hx, exec_add_dest hu hy, addResult_comm]
  · rw [exec_add_flag ht, exec_add_flag hu, addCarry_comm]
  · rw [exec_add_writes_regs ht]

/-- Settles O37: a register other than `x` and 15 is kept, and no field but the registers is written. -/
theorem addFrame : Obligations.AddFrame := by
  unfold Obligations.AddFrame
  intro x y s t h
  have hregs : s.sameRegsBut [x, 15] t := fun i hi => by
    obtain ⟨hix, hi15⟩ : i ≠ x ∧ i ≠ 15 := by simpa using hi
    exact exec_add_keeps_reg h hix hi15
  refine ⟨hregs, ?_⟩
  rw [exec_add_writes_regs h]
  exact ⟨fun _ _ => rfl, sameMemory_of_mem_eq rfl, rfl, rfl, rfl, rfl⟩

end Sys2Proof.Proofs
end

section
/-! A step that records a fault (R82 to R84): what the decoder answers for a word of no row (R81), the instructions
that raise, and the state each fault is left in. -/

namespace Sys2Proof.Machine

open Sys2Proof.Laws

variable {cfg : Config} {s t : State} {op : Word}

/-- The one error of the decoder carries the word it was given. -/
theorem decodeWord_error_eq {e : DecodeError} (h : decodeWord op = .error e) : e = .unimplementedOpcode op := by
  rw [decodeWord_eq_rows] at h
  split_ifs at h
  exact (Except.error.inj h).symm

theorem decodeWord_ok_of_selected (h : ¬ ∀ r ∈ opcodeTable, r.selects op = false) : ∃ i, decodeWord op = .ok i := by
  cases hd : decodeWord op with
  | ok i => exact ⟨i, rfl⟩
  | error e => exact absurd (decodeWord_eq_error_iff.mp (decodeWord_error_eq hd ▸ hd)) h

theorem exec_ret_fault (h : exec .ret s = .next t) :
    t.fault = if s.sp.val = 0 then { kind := .stackUnderflow, opcode := 0#16 } else s.fault := by
  rcases exec_ret_cases h with ⟨hempty, rfl⟩ | ⟨hpos, rfl⟩
  · exact (if_pos hempty).symm
  · exact (if_neg hpos.ne').symm

theorem exec_call_fault {nnn : Addr12} (h : exec (.call nnn) s = .next t) :
    t.fault = if s.sp.val = 16 then { kind := .stackOverflow, opcode := 0#16 } else s.fault := by
  rcases exec_call_cases h with ⟨hfull, rfl⟩ | ⟨hroom, rfl⟩
  · exact (if_pos hfull).symm
  · exact (if_neg hroom.ne).symm

/-- An instruction that writes the fault register is a CALL on a full stack or a RET on an empty one, and it writes
nothing else. -/
theorem exec_raises {i : Instr} (h : exec i s = .next t) (hraised : t.fault ≠ s.fault) :
    (s.sp.val = 16 ∧ t = s.raise .stackOverflow 0#16) ∨ (s.sp.val = 0 ∧ t = s.raise .stackUnderflow 0#16) := by
  cases i with
  | halt =>
    rw [exec_halt] at h
    cases h; exact absurd rfl hraised
  | ret =>
    rcases exec_ret_cases h with hempty | ⟨_, rfl⟩
    · exact .inr hempty
    · exact absurd rfl hraised
  | call nnn =>
    rcases exec_call_cases h with hfull | ⟨_, rfl⟩
    · exact .inl hfull
    · exact absurd rfl hraised
  | add x y =>
    rw [exec_add] at h
    cases h; exact absurd rfl hraised

/-- A step that writes the fault register failed a bound before any other write, or raised at the dispatch. -/
theorem stepWith_raises (h : stepWith cfg s = .next t) (hraised : t.fault ≠ s.fault) :
    t = (s.setExecState .running).raise .outOfBoundsAddress 0#16 ∨
    ∃ op, s.fetches cfg op ∧
      (t = s.atDispatch.raise .unimplementedOpcode op ∨
        (s.sp.val = 16 ∧ t = s.atDispatch.raise .stackOverflow 0#16) ∨
        (s.sp.val = 0 ∧ t = s.atDispatch.raise .stackUnderflow 0#16)) := by
  rcases stepWith_cases cfg s with ⟨-, hs⟩ | ⟨-, -, hs⟩ | ⟨-, -, -, hs⟩ | ⟨op, hfetch, hs⟩ <;> rw [hs] at h
  · cases h; exact absurd rfl hraised
  · cases h; exact .inl rfl
  · cases h; exact .inl rfl
  · refine .inr ⟨op, hfetch, ?_⟩
    cases hd : decodeWord op with
    | ok i => exact .inr (exec_raises (s := s.atDispatch) (dispatch_of_decode hd _ ▸ h) hraised)
    | error e =>
      rw [dispatch_of_error hd] at h
      cases h; exact .inl rfl

end Sys2Proof.Machine
end

section
/-! The core after its first fault (R85, R86, R102): what each command, any number of steps and any session without a
Reset can still write, and that every field can be read. -/

namespace Sys2Proof.Machine

variable {cfg : Config} {n : Nat} {s t u : State} {c : Command} {cs : List Command} {r : Response} {rs : List Response}

theorem command_step_of_faulted (h : s.fault.kind ≠ .none) :
    command cfg n .step s = some (s, .err s.fault.kind s.fault.opcode) := by
  rw [← responseOf_of_fault h]
  exact stepCommand_of_next (stepWith_of_faulted h)

theorem command_run_of_faulted (h : s.fault.kind ≠ .none) :
    command cfg n .run s = some (s, .err s.fault.kind s.fault.opcode) := by
  rw [← responseOf_of_fault h]
  exact if_pos ((faulted_eq_true s).mpr h)

/-- However many steps are run, a faulted core is the same state. -/
theorem core_run_of_faulted (h : s.fault.kind ≠ .none) (k : Nat) : Host.Core.run core k s = .next s := by
  have hstep : core.step s = .next s := stepWith_of_faulted h
  induction k with
  | zero => rfl
  | succ k ih => simp only [Host.Core.run, hstep]; exact ih

/-- On a faulted core no command but Reset writes anything beside `pc` and memory. -/
theorem command_of_faulted_writes_pc_mem (hs : s.fault.kind ≠ .none) (hc : c ≠ .reset)
    (h : command cfg n c s = some (t, r)) : ∃ w m, t = (s.setPc w).setMem m := by
  cases c with
  | reset => exact absurd rfl hc
  | load addr bytes =>
    obtain ⟨m, rfl⟩ := command_load_writes_mem h
    exact ⟨s.pc, m, rfl⟩
  | setProgramCounter addr =>
    obtain ⟨w, rfl⟩ := command_setProgramCounter_writes_pc h
    exact ⟨w, s.mem, rfl⟩
  | step =>
    rw [command_step_of_faulted hs] at h
    cases h; exact ⟨s.pc, s.mem, rfl⟩
  | run =>
    rw [command_run_of_faulted hs] at h
    cases h; exact ⟨s.pc, s.mem, rfl⟩
  | runFromStart =>
    rcases setProgramCounter_cases cfg.programStart s with ⟨-, e⟩ | ⟨-, e⟩ <;>
      simp only [command, runFromStart, e] at h
    · cases h; exact ⟨s.pc, s.mem, rfl⟩
    · have hrun := command_run_of_faulted (cfg := cfg) (n := n) (s := s.setPc (BitVec.ofNat 16 cfg.programStart)) hs
      cases hrun.symm.trans h
      exact ⟨BitVec.ofNat 16 cfg.programStart, s.mem, rfl⟩

theorem session_cons_eq_some (h : session cfg n (c :: cs) s = some (u, rs)) :
    ∃ t r rs', command cfg n c s = some (t, r) ∧ session cfg n cs t = some (u, rs') ∧ rs = r :: rs' := by
  cases hc : command cfg n c s with
  | none => simp [session, hc] at h
  | some p =>
    obtain ⟨t, r⟩ := p
    cases hcs : session cfg n cs t with
    | none => simp [session, hc, hcs] at h
    | some q =>
      simp only [session, hc, hcs, Option.some.injEq, Prod.mk.injEq] at h
      obtain ⟨rfl, rfl⟩ := h
      exact ⟨t, r, q.2, rfl, hcs, rfl⟩

/-- What one command of a faulted core can write, a session without a Reset can write, and no more. -/
theorem session_of_faulted_writes_pc_mem (hs : s.fault.kind ≠ .none) (hcs : .reset ∉ cs)
    (h : session cfg n cs s = some (t, rs)) : ∃ w m, t = (s.setPc w).setMem m := by
  induction cs generalizing s rs with
  | nil =>
    cases h; exact ⟨t.pc, t.mem, rfl⟩
  | cons c cs ih =>
    obtain ⟨hc, hcs⟩ := List.ne_and_not_mem_of_not_mem_cons hcs
    obtain ⟨u, r, rs', hcommand, hsession, -⟩ := session_cons_eq_some h
    obtain ⟨w, m, rfl⟩ := command_of_faulted_writes_pc_mem hs hc.symm hcommand
    obtain ⟨w', m', rfl⟩ := ih (s := (s.setPc w).setMem m) hs hcs hsession
    exact ⟨w', m', rfl⟩

theorem inspect_answers {q : Query} (hmem : ∀ a, q = .mem a → a < memSize) : ∃ v, inspect q s = .ok v := by
  cases q with
  | mem addr => exact ⟨_, inspect_mem_of_readByte (readByte_of_lt (hmem addr rfl))⟩
  | reg | pc | sp | slot | execState | faultKind | faultOpcode => exact ⟨_, rfl⟩

end Sys2Proof.Machine
end

section
namespace Sys2Proof.Proofs

open Sys2Proof.Machine Sys2Proof.Laws

/-- Settles O10: the decoder refuses what no row selects, and the dispatch of a refused word raises with the word. -/
theorem unimplementedWordsFault : Obligations.UnimplementedWordsFault := by
  unfold Obligations.UnimplementedWordsFault
  refine ⟨fun op => ?_, fun s op hfetch hd => (stepWith_of_fetches hfetch).trans (dispatch_of_error hd _)⟩
  split_ifs with hnone
  · exact decodeWord_eq_error_iff.mpr hnone
  · exact decodeWord_ok_of_selected hnone

/-- Settles O23: a fault before the dispatch is raised on the state with `pc` at the instruction, one at the dispatch
on the state with `pc` past it, and raising writes the fault register alone. -/
theorem stateAtAFault : Obligations.StateAtAFault := by
  unfold Obligations.StateAtAFault
  intro s t hok hstep hfault
  have hraised : t.fault ≠ s.fault := fun hkept => hfault (hkept ▸ hok)
  rcases stepWith_raises hstep hraised with rfl | ⟨op, hfetch, hdispatch⟩
  · exact ⟨rfl, rfl, rfl, rfl, rfl, fun _ => ⟨rfl, rfl⟩, nofun, nofun, nofun⟩
  · have hpc := atDispatch_pc_toNat hfetch
    obtain ⟨-, hread, -⟩ := hfetch
    rcases hdispatch with rfl | ⟨hfull, rfl⟩ | ⟨hempty, rfl⟩
    · exact ⟨rfl, rfl, rfl, rfl, rfl, nofun, fun _ => ⟨hpc, hread⟩, nofun, nofun⟩
    · exact ⟨rfl, rfl, rfl, rfl, rfl, nofun, nofun, fun _ => ⟨hpc, hfull, rfl⟩, nofun⟩
    · exact ⟨rfl, rfl, rfl, rfl, rfl, nofun, nofun, nofun, fun _ => ⟨hpc, hempty, rfl⟩⟩

/-- Settles O24: each check in its turn gives the step, and past them the decoded instruction gives its own fault. -/
theorem firstFailingCheckDecidesTheFault : Obligations.FirstFailingCheckDecidesTheFault := by
  unfold Obligations.FirstFailingCheckDecidesTheFault
  intro s t h
  unfold step at h
  by_cases hfault : s.fault.kind ≠ .none
  · rw [stepWith_of_faulted hfault] at h
    cases h; rw [if_pos hfault]
  rw [if_neg hfault]
  have hok : s.fault.kind = .none := not_not.mp hfault
  by_cases hfetch : 4096 ≤ s.pc.toNat + 1
  · rw [stepWith_of_fetch_outside hok hfetch] at h
    cases h; rw [if_pos hfetch]; rfl
  rw [if_neg hfetch]
  by_cases hadvance : 4096 ≤ s.pc.toNat + 2
  · rw [stepWith_of_advance_outside hok (by simpa using hadvance)] at h
    cases h; rw [if_pos hadvance]; rfl
  rw [if_neg hadvance]
  have hread := readWord_eq_some (s := s).mpr ⟨Nat.lt_of_not_le hfetch, rfl⟩
  rw [stepWith_of_fetches (fetches_hardware.mpr ⟨hok, hread, Nat.lt_of_not_le hadvance⟩)] at h
  generalize wordOfBytes (Memory.read s.mem s.pc.toNat) (Memory.read s.mem (s.pc.toNat + 1)) = op at h
  cases hd : decodeWord op with
  | error e =>
    rw [dispatch_of_error hd] at h
    cases h; rfl
  | ok i =>
    rw [dispatch_of_decode hd] at h
    cases i with
    | halt =>
      rw [exec_halt] at h
      cases h; rfl
    | ret => exact exec_ret_fault (s := s.atDispatch) h
    | call nnn => exact exec_call_fault (s := s.atDispatch) h
    | add x y =>
      rw [exec_add] at h
      cases h; rfl

/-- Settles O25: the fault gate stops Step and Run, and no command but Reset writes the fault register. -/
theorem faultIsStickyUntilReset : Obligations.FaultIsStickyUntilReset := by
  unfold Obligations.FaultIsStickyUntilReset
  intro s hs
  refine ⟨core_run_of_faulted hs, fun n => ⟨command_step_of_faulted hs, command_run_of_faulted hs⟩,
    fun n c t r hc h => ?_, fun n addr haddr => command_setProgramCounter_of_le haddr,
    fun n addr bytes hfree hfits => ⟨_, congrArg some (load_of_fits hfree hfits)⟩, fun q hq => inspect_answers hq,
    fun n => ⟨State.reset, rfl, rfl⟩⟩
  obtain ⟨w, m, rfl⟩ := command_of_faulted_writes_pc_mem hs hc h
  rfl

/-- Settles O26: a session without a Reset writes only `pc` and memory, and RunFromStart is a Run behind the gate. -/
theorem onlyTheFirstFaultIsRecorded : Obligations.OnlyTheFirstFaultIsRecorded := by
  unfold Obligations.OnlyTheFirstFaultIsRecorded
  refine ⟨fun cs n s t rs hs hcs h => ?_, fun s n hs => ?_⟩
  · obtain ⟨w, m, rfl⟩ := session_of_faulted_writes_pc_mem hs hcs h
    exact ⟨rfl, rfl, rfl, rfl, rfl⟩
  · rw [command_runFromStart_hardware]
    exact command_run_of_faulted (s := s.setPc 0x200#16) hs

end Sys2Proof.Proofs
end

section
/-! What holds at reset and every command keeps (R33, R46, R73, R98, R106), each part by the operation that could
break it: the fault register by what a step raises, the slots by CALL, memory by Load. -/

namespace Sys2Proof.Machine

variable {cfg : Config} {s t : State} {addr : Nat} {bytes : List Byte}

/-- A step that records a fault records a word with UnimplementedOpcode alone (R77). -/
theorem stepWith_keeps_launchOk (hs : s.launchOk) (h : stepWith cfg s = .next t) : t.launchOk := by
  obtain ⟨hwf, hword⟩ := hs
  refine ⟨(stepWith_keeps_mem h).symm ▸ hwf, ?_⟩
  by_cases hkept : t.fault = s.fault
  · exact hkept.symm ▸ hword
  · rcases stepWith_raises h hkept with rfl | ⟨op, -, rfl | ⟨-, rfl⟩ | ⟨-, rfl⟩⟩
    · exact fun _ => rfl
    · exact fun hother => absurd rfl hother
    · exact fun _ => rfl
    · exact fun _ => rfl

/-- The slots stay in memory even where the host has set `pc` outside it: a CALL there is not fetched (R64, R73). -/
theorem step_keeps_slots_in_memory (hs : ∀ i, (s.slot i).toNat < memSize) (h : step s = .next t) (i : Fin 16) :
    (t.slot i).toNat < memSize := by
  unfold step at h
  rcases stepWith_cases Config.hardware s with ⟨-, hstep⟩ | ⟨-, -, hstep⟩ | ⟨-, -, -, hstep⟩ | ⟨op, hfetch, hstep⟩ <;>
    rw [hstep] at h
  case inr.inr.inr =>
    obtain ⟨-, hslots⟩ := dispatch_keeps_addressesInMemory (atDispatch_addressesInMemory hfetch hs) h
    exact hslots i
  all_goals cases h; exact hs i

theorem stepWith_keeps_reservedZero (hs : s.reservedZero cfg) (h : stepWith cfg s = .next t) : t.reservedZero cfg :=
  fun a ha => (stepWith_keeps_mem h).symm ▸ hs a ha

/-- A byte outside the copy reads as before (R98). -/
theorem Memory.read_writeBytes_outside {m : Memory} (hwf : Memory.wf m = true) (hfits : addr + bytes.length ≤ memSize)
    {a : Nat} (hout : a < addr ∨ addr + bytes.length ≤ a) :
    Memory.read (Memory.writeBytes addr bytes m) a = Memory.read m a := by
  rw [Memory.read_writeBytes hwf hfits, dif_neg (by omega)]

/-- A byte of the copy stands at its address (R98). -/
theorem Memory.read_writeBytes_inside {m : Memory} (hwf : Memory.wf m = true) (hfits : addr + bytes.length ≤ memSize)
    {k : Nat} {b : Byte} (hk : bytes[k]? = some b) : Memory.read (Memory.writeBytes addr bytes m) (addr + k) = b := by
  obtain ⟨hlt, rfl⟩ := List.getElem?_eq_some_iff.mp hk
  simp only [Memory.read_writeBytes hwf hfits, Nat.add_sub_cancel_left]
  exact dif_pos ⟨Nat.le_add_right addr k, hlt⟩

/-- The invariants of this hardware that hold whatever the host commands. `pc` is in none of them: SetProgramCounter
takes any 16-bit value (R99). -/
structure State.HostInvariant (s : State) : Prop where
  launchOk : s.launchOk
  slotsInMemory : ∀ i, (s.slot i).toNat < memSize
  reservedZero : s.reservedZero Config.hardware

theorem step_keeps_hostInvariant (hs : s.HostInvariant) (h : step s = .next t) : t.HostInvariant where
  launchOk := stepWith_keeps_launchOk hs.launchOk h
  slotsInMemory := step_keeps_slots_in_memory hs.slotsInMemory h
  reservedZero := stepWith_keeps_reservedZero hs.reservedZero h

/-- An accepted Load writes above reserved memory, inside memory (R98). -/
theorem writeBytes_keeps_hostInvariant (hs : s.HostInvariant) (hfree : Config.hardware.reservedEnd < addr)
    (hfits : addr + bytes.length ≤ memSize) : (s.setMem (Memory.writeBytes addr bytes s.mem)).HostInvariant := by
  obtain ⟨⟨hwf, hword⟩, hslots, hzero⟩ := hs
  refine ⟨⟨Memory.wf_writeBytes hwf hfits, hword⟩, hslots, fun a ha => ?_⟩
  rw [setMem_mem, Memory.read_writeBytes_outside hwf hfits (.inl (ha.trans_lt hfree))]
  exact hzero a ha

theorem hostInvariant_reset : State.reset.HostInvariant :=
  let ⟨hlaunch, ⟨_, hslots⟩, hzero⟩ := Proofs.resetMeetsTheInvariants
  ⟨hlaunch, hslots, hzero⟩

theorem command_keeps_hostInvariant {n : Nat} {c : Command} {r : Response} (hs : s.HostInvariant)
    (h : command Config.hardware n c s = some (t, r)) : t.HostInvariant :=
  command_keeps (fun _ _ hu hstep => step_keeps_hostInvariant hu hstep)
    (fun _ _ ⟨hlaunch, hslots, hzero⟩ => ⟨hlaunch, hslots, hzero⟩)
    (fun _ _ ⟨hlaunch, hslots, hzero⟩ => ⟨hlaunch, hslots, hzero⟩) hostInvariant_reset
    (fun _ _ _ hu hfree hfits => writeBytes_keeps_hostInvariant hu hfree hfits) hs h

end Sys2Proof.Machine
end

section
/-! The execution state in the step (R70, R83): what a step finds there does not matter, and what it leaves there says
whether it executed HALT. -/

namespace Sys2Proof.Machine

open Sys2Proof.Laws

variable {cfg : Config} {s t : State} {op : Word}

theorem stepWith_setExecState (hok : s.fault.kind = .none) (e : ExecState) :
    stepWith cfg (s.setExecState e) = stepWith cfg s := by
  have hgate := (faulted_eq_false s).mpr hok
  simp only [stepWith, faulted_setExecState, hgate]
  rfl

theorem exec_keeps_execState {i : Instr} (hi : i ≠ .halt) (h : exec i s = .next t) : t.execState = s.execState := by
  cases i with
  | halt => exact absurd rfl hi
  | ret => rcases exec_ret_cases h with ⟨-, rfl⟩ | ⟨-, rfl⟩ <;> rfl
  | call nnn => rcases exec_call_cases h with ⟨-, rfl⟩ | ⟨-, rfl⟩ <;> rfl
  | add x y =>
    rw [exec_add] at h
    cases h; rfl

theorem dispatch_halts (hrun : s.execState = .running) (h : dispatch op s = .next t) (hhalted : t.execState = .halted) :
    op = encode .halt := by
  have hmoved : t.execState ≠ s.execState := by simp [hrun, hhalted]
  cases hd : decodeWord op with
  | ok i =>
    by_cases hi : i = .halt
    · exact (encode_of_decodeWord (hi ▸ hd)).symm
    · exact absurd (exec_keeps_execState hi (dispatch_of_decode hd s ▸ h)) hmoved
  | error e =>
    rw [dispatch_of_error hd] at h
    cases h; exact absurd rfl hmoved

/-- Past the fault gate a step leaves Halted exactly when it executed HALT (R70). -/
theorem stepWith_halted_iff (hok : s.fault.kind = .none) (h : stepWith cfg s = .next t) :
    t.execState = .halted ↔ s.fetches cfg (encode .halt) := by
  constructor
  · intro hhalted
    rcases stepWith_cases cfg s with ⟨hf, -⟩ | ⟨-, -, hs⟩ | ⟨-, -, -, hs⟩ | ⟨op, hfetch, hs⟩
    · exact absurd hok ((faulted_eq_true s).mp hf)
    · cases hs.symm.trans h; exact absurd hhalted nofun
    · cases hs.symm.trans h; exact absurd hhalted nofun
    · obtain rfl := dispatch_halts rfl (hs.symm.trans h) hhalted
      exact hfetch
  · intro hfetch
    rw [stepWith_of_fetches_encode hfetch, exec_halt] at h
    cases h; rfl

/-- A step that records a fault is left Running (R83). -/
theorem stepWith_running_of_fault (hok : s.fault.kind = .none) (h : stepWith cfg s = .next t)
    (hfault : t.fault.kind ≠ .none) : t.execState = .running := by
  have hraised : t.fault ≠ s.fault := fun hkept => hfault (hkept ▸ hok)
  rcases stepWith_raises h hraised with rfl | ⟨op, -, rfl | ⟨-, rfl⟩ | ⟨-, rfl⟩⟩ <;> rfl

end Sys2Proof.Machine
end

section
/-! The loop of Run (R101, R108): what ends it and what it answers there, one turn at a time, and that it is the step
repeated up to the first end. -/

namespace Sys2Proof.Machine

variable {cfg : Config} {n k : Nat} {s t u : State} {r : Response}

/-- The loop goes on from this state: Running, with no fault recorded. -/
def State.runContinues (s : State) : Prop := s.execState = .running ∧ s.fault.kind = .none

/-- The loop ends in this state with this response (R101). -/
def State.runEnds (t : State) (r : Response) : Prop :=
  (t.fault.kind ≠ .none ∧ r = .err t.fault.kind t.fault.opcode) ∨
    (t.fault.kind = .none ∧ t.execState = .halted ∧ r = .ok)

/-- One turn of the loop: it answers after this step, or the rest of the loop does. -/
theorem runLoop_succ_eq_some_iff (h : stepWith cfg s = .next u) :
    runLoop cfg (n + 1) s = some (t, r) ↔
      (t = u ∧ u.runEnds r) ∨ (u.runContinues ∧ runLoop cfg n u = some (t, r)) := by
  rw [runLoop_succ h]
  by_cases hok : u.fault.kind = .none
  · cases he : u.execState with
    | halted => simp [State.runEnds, State.runContinues, hok, he, eq_comm]
    | running => simp [State.runEnds, State.runContinues, hok, he]
  · simp [State.runEnds, State.runContinues, hok, eq_comm]

/-- The loop answers where a step has ended it, and a fault leaves `state` Running. -/
theorem runEnds_of_runLoop (hs : s.fault.kind = .none) (h : runLoop cfg n s = some (t, r)) :
    t.runEnds r ∧ (t.fault.kind ≠ .none → t.execState = .running) := by
  induction n generalizing s with
  | zero => exact absurd h nofun
  | succ n ih =>
    obtain ⟨u, hu⟩ := stepWith_next cfg s
    rcases (runLoop_succ_eq_some_iff hu).mp h with ⟨rfl, hend⟩ | ⟨⟨-, hok⟩, hrest⟩
    · exact ⟨hend, stepWith_running_of_fault hs hu⟩
    · exact ih hok hrest

/-- Step `k + 1` from `s` is the first that ends the loop, in `t` with the response `r` (R101). -/
def State.runEndsAfter (s : State) (k : Nat) (t : State) (r : Response) : Prop :=
  Host.Core.run core (k + 1) s = .next t ∧
    (∀ j u, j ≤ k → Host.Core.run core j s = .next u → State.runContinues u) ∧ t.runEnds r

theorem core_run_succ (h : step s = .next u) (k : Nat) : Host.Core.run core (k + 1) s = Host.Core.run core k u := by
  have hstep : core.step s = .next u := h
  simp only [Host.Core.run, hstep]

theorem runEndsAfter_zero_iff (h : step s = .next u) :
    s.runEndsAfter 0 t r ↔ s.runContinues ∧ t = u ∧ u.runEnds r := by
  unfold State.runEndsAfter
  rw [core_run_succ h]
  constructor
  · rintro ⟨hrun, hpath, hend⟩
    cases hrun; exact ⟨hpath 0 s le_rfl rfl, rfl, hend⟩
  · rintro ⟨hs, rfl, hend⟩
    refine ⟨rfl, fun j v hj hv => ?_, hend⟩
    obtain rfl := Nat.le_zero.mp hj
    cases hv; exact hs

theorem runEndsAfter_succ_iff (h : step s = .next u) :
    s.runEndsAfter (k + 1) t r ↔ s.runContinues ∧ u.runEndsAfter k t r := by
  unfold State.runEndsAfter
  rw [core_run_succ h]
  constructor
  · rintro ⟨hrun, hpath, hend⟩
    refine ⟨hpath 0 s (Nat.zero_le _) rfl, hrun, fun j v hj hv => ?_, hend⟩
    exact hpath (j + 1) v (Nat.succ_le_succ hj) ((core_run_succ h j).trans hv)
  · rintro ⟨hs, hrun, hpath, hend⟩
    refine ⟨hrun, fun j v hj hv => ?_, hend⟩
    cases j with
    | zero => cases hv; exact hs
    | succ j => exact hpath j v (Nat.le_of_succ_le_succ hj) ((core_run_succ h j).symm.trans hv)

theorem runContinues_of_runEndsAfter (h : s.runEndsAfter k t r) : s.runContinues :=
  let ⟨_, hpath, _⟩ := h
  hpath 0 s (Nat.zero_le k) rfl

/-- The loop, watched for any number of steps, is the step repeated up to the first end (R101). -/
theorem runLoop_hardware_answers_iff (hs : s.runContinues) :
    (∃ n, runLoop Config.hardware n s = some (t, r)) ↔ ∃ k, s.runEndsAfter k t r := by
  constructor
  · rintro ⟨n, h⟩
    induction n generalizing s with
    | zero => exact absurd h nofun
    | succ n ih =>
      obtain ⟨u, hu⟩ := stepWith_next Config.hardware s
      rcases (runLoop_succ_eq_some_iff hu).mp h with hend | ⟨hgoes, hrest⟩
      · exact ⟨0, (runEndsAfter_zero_iff hu).mpr ⟨hs, hend⟩⟩
      · obtain ⟨k, hk⟩ := ih hgoes hrest
        exact ⟨k + 1, (runEndsAfter_succ_iff hu).mpr ⟨hs, hk⟩⟩
  · rintro ⟨k, h⟩
    induction k generalizing s with
    | zero =>
      obtain ⟨u, hu⟩ := stepWith_next Config.hardware s
      obtain ⟨-, hend⟩ := (runEndsAfter_zero_iff hu).mp h
      exact ⟨1, (runLoop_succ_eq_some_iff hu).mpr (.inl hend)⟩
    | succ k ih =>
      obtain ⟨u, hu⟩ := stepWith_next Config.hardware s
      obtain ⟨-, hrest⟩ := (runEndsAfter_succ_iff hu).mp h
      have hgoes := runContinues_of_runEndsAfter hrest
      obtain ⟨n, hn⟩ := ih hgoes hrest
      exact ⟨n + 1, (runLoop_succ_eq_some_iff hu).mpr (.inr ⟨hgoes, hn⟩)⟩

theorem command_run_of_ok (hok : s.fault.kind = .none) :
    command cfg n .run s = runLoop cfg n (s.setExecState .running) :=
  run_of_none hok n

/-- A Run whose first step ends it answers within one step. -/
theorem command_run_one_of_runEnds (hok : s.fault.kind = .none) (hstep : stepWith cfg s = .next t)
    (hend : t.runEnds r) : command cfg 1 .run s = some (t, r) := by
  have hfirst : stepWith cfg (s.setExecState .running) = .next t := (stepWith_setExecState hok .running).trans hstep
  rw [command_run_of_ok hok, runLoop_succ_eq_some_iff hfirst]
  exact .inl ⟨rfl, hend⟩

end Sys2Proof.Machine
end

section
namespace Sys2Proof.Proofs

open Sys2Proof.Machine

/-- Settles O56: the invariant of every host command, built from the operation that could break each part. -/
theorem commandsKeepTheInvariants : Obligations.CommandsKeepTheInvariants := by
  unfold Obligations.CommandsKeepTheInvariants
  intro s t n c r hlaunch hslots hzero h
  obtain ⟨hlaunch', hslots', hzero'⟩ := command_keeps_hostInvariant ⟨hlaunch, hslots, hzero⟩ h
  exact ⟨hlaunch', hslots', hzero'⟩

/-- Settles O2: on a faulted core no command but Reset reaches the fault register, and from reset the first step is
the HALT at address 0, which ends a Run at once. -/
theorem resetCommandRestoresEveryField : Obligations.ResetCommandRestoresEveryField := by
  unfold Obligations.ResetCommandRestoresEveryField
  refine ⟨fun s n => ⟨State.reset, rfl, resetLeavesTheSpecifiedState⟩, fun s t n c r hc hs h => ?_, fun n => ?_⟩
  · obtain ⟨w, m, rfl⟩ := command_of_faulted_writes_pc_mem hs hc h
    rfl
  · obtain ⟨-, -, -, hstep⟩ := haltSetsHalted
    exact ⟨_, hstep, rfl, rfl, stepCommand_of_next hstep, 1,
      command_run_one_of_runEnds rfl hstep (.inr ⟨rfl, rfl, rfl⟩)⟩

/-- Settles O14: Load's checks decide the branch, and what an accepted copy leaves is read byte by byte. -/
theorem loadWritesExactlyItsBytes : Obligations.LoadWritesExactlyItsBytes := by
  unfold Obligations.LoadWritesExactlyItsBytes
  refine fun s addr bytes n hwf => ⟨fun hrefused => ?_, fun hfree hfits => ?_⟩
  · rcases load_cases Config.hardware addr bytes s with ⟨-, hload⟩ | ⟨hfree, hfits, -⟩
    · exact congrArg some hload
    · exact absurd hrefused (not_or.mpr ⟨Nat.not_le.mpr hfree, Nat.not_lt.mpr hfits⟩)
  · exact ⟨_, congrArg some (load_of_fits hfree hfits), Memory.wf_writeBytes hwf hfits,
      fun k b hk => Memory.read_writeBytes_inside hwf hfits hk,
      fun a hout => Memory.read_writeBytes_outside hwf hfits hout⟩

/-- Settles O22: the step starts by making `state` Running, and only HALT writes Halted. -/
theorem haltedExactlyAfterHalt : Obligations.HaltedExactlyAfterHalt := by
  unfold Obligations.HaltedExactlyAfterHalt
  exact fun s t hok h => ⟨fun e => (stepWith_setExecState hok e).trans h, stepWith_halted_iff hok h,
    stepWith_running_of_fault hok h⟩

/-- Settles O39: the slot below `sp` is the one the CALL wrote with its `pc`. -/
theorem retResumesAfterTheCall : Obligations.RetResumesAfterTheCall := by
  unfold Obligations.RetResumesAfterTheCall
  intro nnn s t u hroom hcall hsp hstack
  have hpushed : t.slot ⟨s.sp.val, hroom⟩ = s.pc := exec_call_pushes_pc rfl hcall
  have hup : t.sp.val = s.sp.val + 1 := by
    rcases exec_call_cases hcall with ⟨hfull, -⟩ | ⟨-, rfl⟩
    · exact absurd hfull hroom.ne
    · rfl
  have hslot : u.slot ⟨s.sp.val, hroom⟩ = s.pc := by rw [← hpushed, State.slot, State.slot, hstack]
  rw [exec_ret_of_pending (k := ⟨s.sp.val, hroom⟩) (n := s.sp) (hup.symm.trans (congrArg Fin.val hsp.symm)) rfl, hslot]

/-- Settles O42: the response is read from the fault register the step left. -/
theorem stepCommandAnswersTheFaultRegister : Obligations.StepCommandAnswersTheFaultRegister := by
  unfold Obligations.StepCommandAnswersTheFaultRegister
  intro s n
  obtain ⟨t, ht⟩ := stepWith_next Config.hardware s
  refine ⟨t, responseOf t.fault, stepCommand_of_next ht, ht, responseOf_of_none, responseOf_of_fault, fun hs => ?_,
    fun hok => stepWith_halted_iff hok ht⟩
  rw [stepWith_of_faulted hs] at ht
  cases ht; rfl

/-- Settles O43: past the fault gate Run is its loop on the state made Running. -/
theorem runRepeatsTheStepUntilItEnds : Obligations.RunRepeatsTheStepUntilItEnds := by
  unfold Obligations.RunRepeatsTheStepUntilItEnds
  refine ⟨fun s n hs => command_run_of_faulted hs, fun s t r hok => ?_⟩
  simp only [command_run_of_ok hok]
  exact runLoop_hardware_answers_iff (s := s.setExecState .running) ⟨rfl, hok⟩

/-- Settles O47: both commands answer from the loop of Run, RunFromStart with `pc` set first. -/
theorem runEndsHaltedOrFaulted : Obligations.RunEndsHaltedOrFaulted := by
  unfold Obligations.RunEndsHaltedOrFaulted
  intro cfg s t n r hok h
  have hend : t.runEnds r ∧ (t.fault.kind ≠ .none → t.execState = .running) := by
    rcases h with h | h
    · rw [command_run_of_ok hok] at h
      exact runEnds_of_runLoop (s := s.setExecState .running) hok h
    · rw [command_runFromStart_hardware, command_run_of_ok (s := s.setPc 0x200#16) hok] at h
      exact runEnds_of_runLoop (s := (s.setPc 0x200#16).setExecState .running) hok h
  obtain ⟨⟨hfault, rfl⟩ | ⟨hnone, hhalted, rfl⟩, hrunning⟩ := hend
  · exact .inr ⟨rfl, hfault, hrunning hfault⟩
  · exact .inl ⟨rfl, hhalted, hnone⟩

/-- Settles O41: the check of 16 bits decides the branch, and a `pc` from 0x1000 on has no word to fetch. -/
theorem setProgramCounterWritesPcAlone : Obligations.SetProgramCounterWritesPcAlone := by
  unfold Obligations.SetProgramCounterWritesPcAlone
  refine fun s addr n => ⟨fun hbig => congrArg some (if_pos hbig), fun hfits => ?_⟩
  have hpc : (BitVec.ofNat 16 addr).toNat = addr := by rw [BitVec.toNat_ofNat]; omega
  refine ⟨BitVec.ofNat 16 addr, hpc, command_setProgramCounter_of_le hfits, fun hout hok => ?_⟩
  have houtside : memSize ≤ (s.setPc (BitVec.ofNat 16 addr)).pc.toNat + 1 := by
    rw [setPc_pc, hpc]; exact Nat.le_succ_of_le hout
  exact ⟨_, stepWith_of_fetch_outside (s := s.setPc (BitVec.ofNat 16 addr)) hok houtside, rfl⟩

/-- Settles O44: `PROGRAM_START` fits 16 bits, so RunFromStart is Run on the state with `pc` there. -/
theorem runFromStartRunsFromProgramStart : Obligations.RunFromStartRunsFromProgramStart := by
  unfold Obligations.RunFromStartRunsFromProgramStart
  exact fun s n => ⟨s.setPc 0x200#16, command_setProgramCounter_of_le (by decide), rfl, command_runFromStart_hardware⟩

end Sys2Proof.Proofs
end

section
/-! Facts about what is read and written by address: memories in canonical form that read alike (R41), the word read
inside an accepted copy (R42, R51), and reserved memory in every reachable state (R46). -/

namespace Sys2Proof.Machine

variable {s t : State} {m m' : Memory} {lo addr k : Nat} {bytes : List Byte}

/-- The canonical form of a nonempty list, part by part. -/
theorem Memory.wfFrom_cons_iff {b : Byte} :
    Memory.wfFrom lo ((k, b) :: m) = true ↔
      lo ≤ k ∧ k < memSize ∧ b ≠ 0#8 ∧ Memory.wfFrom (k + 1) m = true := by
  simp only [Memory.wfFrom, Bool.and_eq_true, decide_eq_true_eq, and_assoc]

theorem Memory.read_cons_same {b : Byte} : Memory.read ((k, b) :: m) k = b := if_pos rfl

/-- The canonical form from `lo` on lists no address below `lo`. -/
theorem Memory.le_of_read_ne_zero (hwf : Memory.wfFrom lo m = true) (hread : Memory.read m addr ≠ 0#8) : lo ≤ addr :=
  Nat.le_of_not_lt fun hlt => hread (Memory.read_of_wfFrom hwf hlt)

/-- A canonical memory is determined by what it reads: the first address that does not read 0 is listed first. -/
theorem Memory.eq_of_read_eq (hwf : Memory.wfFrom lo m = true) (hwf' : Memory.wfFrom lo m' = true)
    (hread : ∀ a, Memory.read m a = Memory.read m' a) : m = m' := by
  induction m generalizing lo m' with
  | nil =>
    cases m' with
    | nil => rfl
    | cons cell m' =>
      obtain ⟨k', b'⟩ := cell
      obtain ⟨-, -, hb', -⟩ := Memory.wfFrom_cons_iff.mp hwf'
      exact absurd ((hread k').trans Memory.read_cons_same).symm hb'
  | cons cell m ih =>
    obtain ⟨k, b⟩ := cell
    obtain ⟨-, hk, hb, hm⟩ := Memory.wfFrom_cons_iff.mp hwf
    cases m' with
    | nil => exact absurd ((hread k).symm.trans Memory.read_cons_same).symm hb
    | cons cell' m' =>
      obtain ⟨k', b'⟩ := cell'
      obtain ⟨-, hk', hb', hm'⟩ := Memory.wfFrom_cons_iff.mp hwf'
      have hle : k' ≤ k := Memory.le_of_read_ne_zero (Memory.wfFrom_cons_iff.mpr ⟨le_rfl, hk', hb', hm'⟩)
        (by rwa [← hread k, Memory.read_cons_same])
      have hge : k ≤ k' := Memory.le_of_read_ne_zero (Memory.wfFrom_cons_iff.mpr ⟨le_rfl, hk, hb, hm⟩)
        (by rwa [hread k', Memory.read_cons_same])
      obtain rfl : k = k' := hge.antisymm hle
      obtain rfl : b = b' := by simpa only [Memory.read_cons_same] using hread k
      refine congrArg _ (ih hm hm' fun a => ?_)
      have ha := hread a
      by_cases hak : a = k
      · rw [Memory.read_of_wfFrom hm (by omega), Memory.read_of_wfFrom hm' (by omega)]
      · simpa only [Memory.read, if_neg hak] using ha

theorem reachable_hostInvariant (h : Reachable Config.hardware s) : s.HostInvariant :=
  reachable_keeps hostInvariant_reset (fun _ _ _ _ _ hs hc => command_keeps_hostInvariant hs hc) h

end Sys2Proof.Machine
end

section
/-! The registers from reset on (R106): no instruction makes a register other than 0 out of registers that are 0. -/

namespace Sys2Proof.Machine

variable {cfg : Config} {s t : State} {op : Word}

/-- Every general register holds 0. -/
def State.regsZero (s : State) : Prop := ∀ i, s.reg i = 0#8

theorem exec_keeps_regsZero {i : Instr} (hs : s.regsZero) (h : exec i s = .next t) : t.regsZero := by
  by_cases hadd : ∃ x y, i = .add x y
  · obtain ⟨x, y, rfl⟩ := hadd
    intro j
    rw [exec_add_reg h, hs x, hs y, hs j]
    split_ifs <;> rfl
  · push Not at hadd
    obtain ⟨hregs, -⟩ := exec_control_frame hadd h
    exact fun j => (hregs j List.not_mem_nil).trans (hs j)

theorem stepWith_keeps_regsZero (hs : s.regsZero) (h : stepWith cfg s = .next t) : t.regsZero := by
  rcases stepWith_cases cfg s with ⟨-, hstep⟩ | ⟨-, -, hstep⟩ | ⟨-, -, -, hstep⟩ | ⟨op, -, hstep⟩ <;> rw [hstep] at h
  case inr.inr.inr =>
    cases hd : decodeWord op with
    | ok i => exact exec_keeps_regsZero (s := s.atDispatch) hs (dispatch_of_decode hd _ ▸ h)
    | error e =>
      rw [dispatch_of_error hd] at h
      cases h; exact hs
  all_goals cases h; exact hs

theorem reachable_regsZero (h : Reachable cfg s) : s.regsZero :=
  reachable_keeps reg_reset
    (fun _ _ _ _ _ hs hc => command_keeps (fun _ _ hu hstep => stepWith_keeps_regsZero hu hstep) (fun _ _ hu => hu)
      (fun _ _ hu => hu) reg_reset (fun _ _ _ hu _ _ => hu) hs hc) h

end Sys2Proof.Machine
end

section
namespace Sys2Proof.Proofs

open Sys2Proof.Machine Sys2Proof.Laws

/-- Settles O53: a step keeps memory, and the faults it records carry a word with UnimplementedOpcode alone. -/
theorem stepKeepsLaunchStates : Obligations.StepKeepsLaunchStates := by
  unfold Obligations.StepKeepsLaunchStates
  exact fun cfg s t hs h => stepWith_keeps_launchOk hs h

/-- Settles O11: two canonical memories that read alike list the same first address, and so on along both. -/
theorem equalMemoriesAreEqualData : Obligations.EqualMemoriesAreEqualData := by
  unfold Obligations.EqualMemoriesAreEqualData
  exact fun m m' hwf hwf' hread => Memory.eq_of_read_eq hwf hwf' hread

/-- Settles O15: a Load that answers Ok is its copy, whose bytes stand one after the other. -/
theorem fetchAfterLoadSeesTheBytes : Obligations.FetchAfterLoadSeesTheBytes := by
  unfold Obligations.FetchAfterLoadSeesTheBytes
  intro s t addr k n bytes b0 b1 hwf hload hk hk1
  rcases load_cases Config.hardware addr bytes s with ⟨-, e⟩ | ⟨-, hfits, e⟩ <;> simp only [command, e] at hload <;>
    cases hload
  obtain ⟨hlast, -⟩ := List.getElem?_eq_some_iff.mp hk1
  refine ⟨wordOfBytes b0 b1, readWord_eq_some.mpr ⟨by omega, ?_⟩, wordOfBytes_toNat b0 b1⟩
  rw [setMem_mem, Memory.read_writeBytes_inside hwf hfits hk, Nat.add_assoc,
    Memory.read_writeBytes_inside hwf hfits hk1]

/-- Settles O16: reserved memory is 0 under the invariant every command keeps, and each read there is by its bytes. -/
theorem reservedMemoryKeepsItsResetValue : Obligations.ReservedMemoryKeepsItsResetValue := by
  unfold Obligations.ReservedMemoryKeepsItsResetValue
  intro s hs
  have hbyte : ∀ a, a ≤ 0x1FF → s.readByte a = some 0#8 := fun a ha =>
    readByte_eq_some.mpr ⟨ha.trans_lt (by decide), (reachable_hostInvariant hs).reservedZero a ha⟩
  exact ⟨hbyte, fun a ha => readWord_of_bytes (hbyte a (Nat.le_succ_of_le ha)) (hbyte (a + 1) (Nat.succ_le_succ ha)),
    decodeWord_encode .halt, fun b hb => readWord_of_bytes (hbyte 0x1FF le_rfl) hb⟩

/-- Settles O57: ADD of two zeros stores 0 and no carry, and no other command or instruction writes a register. -/
theorem registersStayZeroFromReset : Obligations.RegistersStayZeroFromReset := by
  unfold Obligations.RegistersStayZeroFromReset
  exact fun s hs => reachable_regsZero hs

/-- Settles O9: each encoded word as the formula of its form. -/
theorem encodeFollowsTheAssemblerFormulas : Obligations.EncodeFollowsTheAssemblerFormulas := by
  unfold Obligations.EncodeFollowsTheAssemblerFormulas
  exact ⟨rfl, rfl, encode_call_eq_or, encode_add_eq_or⟩

/-- Settles O50: each read is its field; a byte is read by its address, and the codes of the kinds are their numbers. -/
theorem inspectionReadsEveryField : Obligations.InspectionReadsEveryField := by
  unfold Obligations.InspectionReadsEveryField
  refine fun s => ⟨fun _ => rfl, fun a ha => inspect_mem_of_readByte (readByte_of_lt ha), fun a ha => ?_, rfl, rfl,
    fun _ => rfl, ?_, ?_, rfl⟩
  · have hnone : s.readByte a = none := if_neg (Nat.not_lt.mpr ha)
    simp only [inspect, hnone]
  · simp only [inspect]
    cases s.execState <;> rfl
  · simp only [inspect]
    cases s.fault.kind <;> rfl

end Sys2Proof.Proofs
end

section
/-! The words of each row of the opcode map, counted (R56, R58): the words a row selects are the encodings of its
instructions, and every instruction has one word. -/

namespace Sys2Proof.Laws

variable {op : Word}

theorem encode_injective : Function.Injective encode := fun i j h =>
  Except.ok.inj ((decodeWord_encode i).symm.trans (h ▸ decodeWord_encode j))

theorem selectsOwnRow (i : Instr) : i.row.selects (encode i) = true := by
  cases i with
  | halt => exact SelectsOwnRow.halt.2
  | ret => exact SelectsOwnRow.ret.2
  | call nnn => exact (SelectsOwnRow.call nnn).2
  | add x y => exact (SelectsOwnRow.add x y).2

/-- A row selects a word exactly when the word encodes an instruction of that row. -/
theorem selects_iff_encode {r : OpcodeRow} (hr : r ∈ opcodeTable) :
    r.selects op = true ↔ ∃ i, i.row = r ∧ encode i = op := by
  constructor
  · intro hsel
    simp only [opcodeTable, List.mem_cons, List.not_mem_nil, or_false] at hr
    rcases hr with rfl | rfl | rfl | rfl
    · obtain ⟨hc, hx, hy, hd⟩ := rowHalt_selects_iff.mp hsel
      exact ⟨.halt, rfl, word_eq_of_fields hc.symm hx.symm hy.symm hd.symm⟩
    · obtain ⟨hc, hx, hy, hd⟩ := rowRet_selects_iff.mp hsel
      exact ⟨.ret, rfl, word_eq_of_fields hc.symm hx.symm hy.symm hd.symm⟩
    · exact ⟨.call (fieldNNN op), rfl, encode_call_eq_iff.mpr ⟨rowCall_selects_iff.mp hsel, rfl⟩⟩
    · exact ⟨.add _ _, rfl, encode_add_eq_iff.mpr ⟨rowAdd_selects_iff.mp hsel, rfl, rfl⟩⟩
  · rintro ⟨i, rfl, rfl⟩
    exact selectsOwnRow i

theorem row_eq_of_selects {r q : OpcodeRow} (hr : r ∈ opcodeTable) (hq : q ∈ opcodeTable) (hrop : r.selects op = true)
    (hqop : q.selects op = true) : r = q := by
  obtain ⟨i, rfl, hi⟩ := (selects_iff_encode hr).mp hrop
  obtain ⟨j, rfl, hj⟩ := (selects_iff_encode hq).mp hqop
  rw [encode_injective (hi.trans hj.symm)]

theorem selected_eq_image {r : OpcodeRow} (hr : r ∈ opcodeTable) :
    {op | r.selects op = true} = encode '' {i | i.row = r} :=
  Set.ext fun _ => selects_iff_encode hr

/-- A row selects as many words as it has instructions. -/
theorem ncard_selected {r : OpcodeRow} (hr : r ∈ opcodeTable) :
    Set.ncard {op | r.selects op = true} = Set.ncard {i : Instr | i.row = r} := by
  rw [selected_eq_image hr, Set.ncard_image_of_injective _ encode_injective]

theorem row_eq_rowHalt_iff {i : Instr} : i.row = rowHalt ↔ i = .halt := by
  cases i <;> simp [Instr.row, rowHalt, rowRet, rowCall, rowAdd]

theorem row_eq_rowRet_iff {i : Instr} : i.row = rowRet ↔ i = .ret := by
  cases i <;> simp [Instr.row, rowHalt, rowRet, rowCall, rowAdd]

theorem row_eq_rowCall_iff {i : Instr} : i.row = rowCall ↔ ∃ nnn, Instr.call nnn = i := by
  cases i <;> simp [Instr.row, rowHalt, rowRet, rowCall, rowAdd]

theorem row_eq_rowAdd_iff {i : Instr} : i.row = rowAdd ↔ ∃ p : RegIndex × RegIndex, Instr.add p.1 p.2 = i := by
  cases i <;> simp [Instr.row, rowHalt, rowRet, rowCall, rowAdd]

theorem natCard_bitVec (w : Nat) : Nat.card (BitVec w) = 2 ^ w :=
  (Nat.card_congr BitVec.equivFin.toEquiv).trans (Nat.card_fin _)

theorem add_injective : Function.Injective fun p : RegIndex × RegIndex => Instr.add p.1 p.2 :=
  fun _ _ h => Prod.ext (Instr.add.inj h).1 (Instr.add.inj h).2

theorem call_injective : Function.Injective Instr.call := fun _ _ h => Instr.call.inj h

theorem ncard_selected_halt : Set.ncard {op | rowHalt.selects op = true} = 1 := by
  rw [ncard_selected (by simp [opcodeTable])]
  simp only [row_eq_rowHalt_iff]
  exact Set.ncard_singleton _

theorem ncard_selected_ret : Set.ncard {op | rowRet.selects op = true} = 1 := by
  rw [ncard_selected (by simp [opcodeTable])]
  simp only [row_eq_rowRet_iff]
  exact Set.ncard_singleton _

theorem ncard_selected_call : Set.ncard {op | rowCall.selects op = true} = 4096 := by
  rw [ncard_selected (by simp [opcodeTable])]
  simp only [row_eq_rowCall_iff]
  exact (Set.ncard_range_of_injective call_injective).trans (natCard_bitVec 12)

theorem ncard_selected_add : Set.ncard {op | rowAdd.selects op = true} = 256 := by
  rw [ncard_selected (by simp [opcodeTable])]
  simp only [row_eq_rowAdd_iff]
  refine (Set.ncard_range_of_injective add_injective).trans ?_
  rw [Nat.card_prod, Nat.card_fin]

/-- An instruction is its constructor and its operands. -/
def instrEquivOperands : Instr ≃ (Unit ⊕ Unit) ⊕ Addr12 ⊕ RegIndex × RegIndex where
  toFun
    | .halt => .inl (.inl ())
    | .ret => .inl (.inr ())
    | .call nnn => .inr (.inl nnn)
    | .add x y => .inr (.inr (x, y))
  invFun
    | .inl (.inl ()) => .halt
    | .inl (.inr ()) => .ret
    | .inr (.inl nnn) => .call nnn
    | .inr (.inr (x, y)) => .add x y
  left_inv i := by cases i <;> rfl
  right_inv p := by rcases p with (_ | _) | _ | _ <;> rfl

theorem natCard_instr : Nat.card Instr = 4354 := by
  rw [Nat.card_congr instrEquivOperands, Nat.card_sum, Nat.card_sum, Nat.card_sum, Nat.card_prod, natCard_bitVec,
    Nat.card_fin, Nat.card_unique]
  rfl

theorem row_mem_opcodeTable (i : Instr) : i.row ∈ opcodeTable := by
  cases i <;> simp [Instr.row, opcodeTable]

/-- The words no row selects are those that encode no instruction. -/
theorem unselected_eq_compl : {op | ∀ r ∈ opcodeTable, r.selects op = false} = (Set.range encode)ᶜ := by
  ext op
  constructor
  · rintro hnone ⟨i, rfl⟩
    exact absurd (selectsOwnRow i) (Bool.eq_false_iff.mp (hnone i.row (row_mem_opcodeTable i)))
  · intro hnot r hr
    refine Bool.eq_false_iff.mpr fun hsel => ?_
    obtain ⟨i, -, hi⟩ := (selects_iff_encode hr).mp hsel
    exact hnot ⟨i, hi⟩

theorem ncard_unselected : Set.ncard {op | ∀ r ∈ opcodeTable, r.selects op = false} = 61182 := by
  rw [unselected_eq_compl]
  have hcount := Set.ncard_add_ncard_compl (Set.range encode)
  rw [Set.ncard_range_of_injective encode_injective, natCard_instr, natCard_bitVec] at hcount
  omega

end Sys2Proof.Laws
end

section
/-! What the decoder looks at for each instruction (R57), and the unimplemented words by their fields (R58). -/

namespace Sys2Proof.Laws

variable {op : Word}

theorem decodeWord_eq_halt_iff : decodeWord op = .ok .halt ↔ op = 0x0000#16 :=
  decodeWord_eq_ok_iff.trans eq_comm

theorem decodeWord_eq_ret_iff : decodeWord op = .ok .ret ↔ op = 0x00EE#16 :=
  decodeWord_eq_ok_iff.trans eq_comm

theorem decodeWord_eq_call_iff : (∃ nnn, decodeWord op = .ok (.call nnn)) ↔ fieldC op = 0x2#4 := by
  simp [decodeWord_eq_ok_iff, encode_call_eq_iff]

theorem decodeWord_eq_add_iff :
    (∃ x y, decodeWord op = .ok (.add x y)) ↔ fieldC op = 0x8#4 ∧ fieldD op = 0x4#4 := by
  simp [decodeWord_eq_ok_iff, encode_add_eq_iff]

/-- A word is unimplemented exactly when it is not one of the two fixed words and meets neither pattern of fields. -/
theorem decodeWord_eq_error_iff_fields :
    decodeWord op = .error (.unimplementedOpcode op) ↔
      op ≠ 0x0000#16 ∧ op ≠ 0x00EE#16 ∧ fieldC op ≠ 0x2#4 ∧ ¬ (fieldC op = 0x8#4 ∧ fieldD op = 0x4#4) := by
  simp only [ne_eq, ← decodeWord_eq_call_iff, ← decodeWord_eq_add_iff]
  constructor
  · intro h
    exact ⟨mt decodeWord_eq_halt_iff.mpr (by simp [h]), mt decodeWord_eq_ret_iff.mpr (by simp [h]), by simp [h],
      by simp [h]⟩
  · rintro ⟨hhalt, hret, hcall, hadd⟩
    cases hd : decodeWord op with
    | error e => rw [Machine.decodeWord_error_eq hd]
    | ok i =>
      cases i with
      | halt => exact absurd (decodeWord_eq_halt_iff.mp hd) hhalt
      | ret => exact absurd (decodeWord_eq_ret_iff.mp hd) hret
      | call nnn => exact absurd ⟨nnn, hd⟩ hcall
      | add x y => exact absurd ⟨x, y, hd⟩ hadd

/-- The values of `c` that no row names. -/
theorem nibble_mem_unnamed_iff (c : Nibble) :
    c ∈ [1#4, 3#4, 4#4, 5#4, 6#4, 7#4, 9#4, 0xA#4, 0xB#4, 0xC#4, 0xD#4, 0xE#4, 0xF#4] ↔
      c ≠ 0#4 ∧ c ≠ 2#4 ∧ c ≠ 8#4 := by
  revert c; decide

end Sys2Proof.Laws
end

section
namespace Sys2Proof.Proofs

open Sys2Proof.Machine Sys2Proof.Laws

/-- Settles O5: the words of a row are the encodings of its instructions, one each, so counting instructions counts
words; by its fields a word is unimplemented when it is no instruction's. -/
theorem opcodeRowsAreDisjointAndCounted : Obligations.OpcodeRowsAreDisjointAndCounted := by
  unfold Obligations.OpcodeRowsAreDisjointAndCounted
  refine ⟨?_, ncard_unselected, fun op r q hr hq => row_eq_of_selects hr hq, fun op => ⟨decodeWord_eq_halt_iff,
    decodeWord_eq_ret_iff, decodeWord_eq_call_iff, decodeWord_eq_add_iff, ?_⟩⟩
  · simp only [opcodeTable, List.map_cons, List.map_nil, ncard_selected_halt, ncard_selected_ret, ncard_selected_call,
      ncard_selected_add]
  · rw [decodeWord_eq_error_iff_fields, nibble_mem_unnamed_iff]
    by_cases hzero : fieldC op = 0#4
    · simp [hzero]
    · have hfixed : op ≠ 0x0000#16 ∧ op ≠ 0x00EE#16 := by
        constructor <;> rintro rfl <;> exact hzero rfl
      by_cases height : fieldC op = 8#4
      · simp [height, hfixed]
      · simp [hzero, height, hfixed]

end Sys2Proof.Proofs
end

section
/-! The commands one by one: which field each can write (R38), how long a Run is watched (log entry 4), and Load and
SetProgramCounter in either order (R107). -/

namespace Sys2Proof.Machine

variable {cfg : Config} {n m : Nat} {s t : State} {c : Command} {a : State × Response} {r : Response}

/-- Steps, however many a command runs, keep memory: Load and Reset alone can write it. -/
theorem command_keeps_mem (hreset : c ≠ .reset) (hload : ∀ addr bytes, c ≠ .load addr bytes)
    (h : command cfg n c s = some (t, r)) : t.mem = s.mem := by
  have hstep : ∀ u v : State, u.mem = s.mem → stepWith cfg u = .next v → v.mem = s.mem :=
    fun u v hu huv => (stepWith_keeps_mem huv).trans hu
  cases c with
  | reset => exact absurd rfl hreset
  | load addr bytes => exact absurd rfl (hload addr bytes)
  | setProgramCounter addr =>
    obtain ⟨w, rfl⟩ := command_setProgramCounter_writes_pc h
    rfl
  | step =>
    obtain ⟨u, hu⟩ := stepWith_next cfg s
    cases (stepCommand_of_next hu).symm.trans h
    exact stepWith_keeps_mem hu
  | run => exact run_keeps hstep (fun _ _ hu => hu) rfl h
  | runFromStart =>
    rcases setProgramCounter_cases cfg.programStart s with ⟨-, e⟩ | ⟨-, e⟩ <;>
      simp only [command, runFromStart, e] at h
    · cases h; rfl
    · exact run_keeps hstep (fun _ _ hu => hu) (s := s.setPc (BitVec.ofNat 16 cfg.programStart)) rfl h

theorem runLoop_of_le (h : runLoop cfg n s = some a) (hle : n ≤ m) : runLoop cfg m s = some a := by
  obtain ⟨t, r⟩ := a
  induction n generalizing m s with
  | zero => exact absurd h nofun
  | succ n ih =>
    cases m with
    | zero => omega
    | succ m =>
      obtain ⟨u, hu⟩ := stepWith_next cfg s
      rw [runLoop_succ_eq_some_iff hu] at h ⊢
      exact h.imp_right fun ⟨hgoes, hrest⟩ => ⟨hgoes, ih (Nat.le_of_succ_le_succ hle) hrest⟩

theorem run_of_le (h : run cfg n s = some a) (hle : n ≤ m) : run cfg m s = some a := by
  unfold run at h ⊢
  split_ifs at h ⊢
  · exact h
  · exact runLoop_of_le h hle

/-- Load neither reads nor writes `pc`. -/
theorem load_setPc (addr : Nat) (bytes : List Byte) (w : Word) (s : State) :
    load cfg addr bytes (s.setPc w) = ((load cfg addr bytes s).1.setPc w, (load cfg addr bytes s).2) := by
  unfold load
  split_ifs <;> rfl

theorem command_setProgramCounter_of_lt {addr : Nat} (h : 0xFFFF < addr) :
    command cfg n (.setProgramCounter addr) s = some (s, .err .outOfBoundsAddress 0#16) :=
  congrArg some (if_pos h)

end Sys2Proof.Machine
end

section
namespace Sys2Proof.Proofs

open Sys2Proof.Machine Sys2Proof.Laws

/-- Settles O27: a fetched word lies in memory, so the advance past it does not wrap; a CALL pushes the advanced `pc`,
which the strict bound keeps below the end of memory. -/
theorem programCounterNeverWraps : Obligations.ProgramCounterNeverWraps := by
  unfold Obligations.ProgramCounterNeverWraps
  have hadvance : ∀ (cfg : Config) (s : State) (op : Word), s.fetches cfg op →
      s.pc.toNat ≤ 0xFFE ∧ s.atDispatch.pc.toNat = s.pc.toNat + 2 ∧ s.pc.toNat + 2 ≤ 0x1000 := by
    rintro cfg s op ⟨-, hread, -⟩
    obtain ⟨hin, -⟩ := readWord_eq_some.mp hread
    rw [memSize_eq] at hin
    exact ⟨by omega, atDispatch_pc_toNat_of_readWord hread, by omega⟩
  refine ⟨hadvance, fun cfg s t nnn k hfetch hk hstep => ?_, fun s addr n hout haddr hok => ?_⟩
  · obtain ⟨-, hpc, hle⟩ := hadvance cfg s _ hfetch
    have hpushed := exec_call_pushes_pc (s := s.atDispatch) hk ((stepWith_of_fetches_encode hfetch).symm.trans hstep)
    rw [hpushed, hpc]
    refine ⟨hle, fun hstrict => ?_⟩
    obtain ⟨-, -, hbound⟩ := hfetch
    simp only [advanceInBound_iff, hstrict, insnBytes_eq, memSize_eq] at hbound
    exact Nat.le_of_lt_succ hbound
  · obtain ⟨-, hset⟩ := setProgramCounterWritesPcAlone s addr n
    obtain ⟨pc, hpc, hcommand, -⟩ := hset haddr
    have houtside : memSize ≤ pc.toNat + 1 := by rw [hpc]; exact Nat.le_succ_of_le hout
    exact ⟨_, hcommand, hpc, stepWith_of_fetch_outside (s := { s with pc := pc }) hok houtside⟩

/-- Settles O48: a loop that has answered answers the same when watched for longer, and the other commands are not
watched. -/
theorem patienceDoesNotChangeAResponse : Obligations.PatienceDoesNotChangeAResponse := by
  unfold Obligations.PatienceDoesNotChangeAResponse
  intro cfg c s n m a h hle
  cases c with
  | reset | load | setProgramCounter | step => exact h
  | run => exact run_of_le h hle
  | runFromStart =>
    rcases setProgramCounter_cases cfg.programStart s with ⟨-, e⟩ | ⟨-, e⟩ <;>
      simp only [command, runFromStart, e] at h ⊢
    · exact h
    · exact run_of_le h hle

/-- Settles O49: Load writes memory alone, SetProgramCounter `pc` alone, and steps no byte of memory. -/
theorem writersOfEachField : Obligations.WritersOfEachField := by
  unfold Obligations.WritersOfEachField
  refine fun s t n c r hreset h => ⟨fun hload => command_keeps_mem hreset hload h, ?_, ?_⟩
  · rintro addr bytes rfl
    obtain ⟨m, rfl⟩ := command_load_writes_mem h
    rfl
  · rintro addr rfl
    obtain ⟨w, rfl⟩ := command_setProgramCounter_writes_pc h
    rfl

/-- Settles O51: neither command reads what the other writes, so each is taken or refused alike in both orders. -/
theorem loadAndSetProgramCounterCommute : Obligations.LoadAndSetProgramCounterCommute := by
  unfold Obligations.LoadAndSetProgramCounterCommute
  intro s n addr pc bytes
  rcases Nat.lt_or_ge 0xFFFF pc with hbig | hfits
  · have hset := fun u => command_setProgramCounter_of_lt (cfg := Config.hardware) (n := n) (s := u) hbig
    exact ⟨_, _, _, session_cons rfl (session_cons (hset _) rfl), session_cons (hset s) (session_cons rfl rfl)⟩
  · have hset := fun u => command_setProgramCounter_of_le (cfg := Config.hardware) (n := n) (s := u) hfits
    exact ⟨_, _, _, session_cons rfl (session_cons (hset _) rfl),
      session_cons (hset s) (session_cons (congrArg some (load_setPc addr bytes _ s)) rfl)⟩

end Sys2Proof.Proofs
end

section
/-! The order of R109: how two sequences compare behind a common beginning, and a number for each sequence that grows
with the order, so that the order has no endless rise on sequences of bounded length. -/

namespace Sys2Proof.Machine

variable {l m p : List Nat} {w : Nat}

theorem configurationLt_cons_iff {a b : Nat} :
    configurationLt (a :: l) (b :: m) = true ↔ a < b ∨ (a = b ∧ configurationLt l m = true) := by
  simp [configurationLt]

theorem configurationLt_append_left (h : configurationLt l m = true) : configurationLt (p ++ l) (p ++ m) = true := by
  induction p with
  | nil => exact h
  | cons a p ih => exact configurationLt_cons_iff.mpr (.inr ⟨rfl, ih⟩)

/-- A sequence is larger than every longer one it begins: its end counts as larger than any number. -/
theorem configurationLt_append_singleton (a : Nat) : configurationLt (p ++ [a]) p = true := by
  induction p with
  | nil => rfl
  | cons b p ih => exact configurationLt_cons_iff.mpr (.inr ⟨rfl, ih⟩)

theorem configurationLt_of_lt {a b : Nat} (h : a < b) : configurationLt (a :: l) (b :: m) = true :=
  configurationLt_cons_iff.mpr (.inl h)

/-- A sequence as a number of `w` digits to the base 65537: the numbers are digits below the largest, and the end of
the sequence counts as more than any digits that could follow. -/
def configurationRank : Nat → List Nat → Nat
  | 0, _ => 1
  | w + 1, [] => 65537 ^ (w + 1)
  | w + 1, a :: l => a * 65537 ^ w + configurationRank w l

theorem configurationRank_pos (w : Nat) (l : List Nat) : 0 < configurationRank w l := by
  induction w generalizing l with
  | zero => exact Nat.one_pos
  | succ w ih =>
    cases l with
    | nil => exact Nat.pow_pos (by decide)
    | cons a l => exact Nat.add_pos_right _ (ih l)

/-- A sequence of words has at most the rank of the empty one. -/
theorem configurationRank_le (hl : ∀ a ∈ l, a < 65536) : configurationRank w l ≤ 65537 ^ w := by
  induction w generalizing l with
  | zero => exact le_rfl
  | succ w ih =>
    cases l with
    | nil => exact le_rfl
    | cons a l =>
      obtain ⟨ha, hl⟩ := List.forall_mem_cons.mp hl
      calc a * 65537 ^ w + configurationRank w l
          ≤ a * 65537 ^ w + 65537 ^ w := Nat.add_le_add_left (ih hl) _
        _ = (a + 1) * 65537 ^ w := (Nat.succ_mul _ _).symm
        _ ≤ 65537 * 65537 ^ w := Nat.mul_le_mul_right _ (by omega)
        _ = 65537 ^ (w + 1) := (Nat.pow_succ').symm

/-- The rank grows with the order on sequences of at most `w` words. -/
theorem configurationRank_lt (hlen : l.length ≤ w) (hl : ∀ a ∈ l, a < 65536) (h : configurationLt l m = true) :
    configurationRank w l < configurationRank w m := by
  induction w generalizing l m with
  | zero =>
    obtain rfl := List.eq_nil_of_length_eq_zero (Nat.le_zero.mp hlen)
    exact absurd h nofun
  | succ w ih =>
    cases l with
    | nil => exact absurd h nofun
    | cons a l =>
      obtain ⟨ha, hl⟩ := List.forall_mem_cons.mp hl
      have hrank : a * 65537 ^ w + configurationRank w l ≤ (a + 1) * 65537 ^ w := by
        rw [Nat.succ_mul]
        exact Nat.add_le_add_left (configurationRank_le hl) _
      cases m with
      | nil =>
        refine hrank.trans_lt ?_
        rw [configurationRank, Nat.pow_succ']
        exact Nat.mul_lt_mul_of_pos_right (by omega) (Nat.pow_pos (by decide))
      | cons b m =>
        rcases configurationLt_cons_iff.mp h with hlt | ⟨rfl, hrest⟩
        · calc a * 65537 ^ w + configurationRank w l
              ≤ (a + 1) * 65537 ^ w := hrank
            _ ≤ b * 65537 ^ w := Nat.mul_le_mul_right _ hlt
            _ < b * 65537 ^ w + configurationRank w m := Nat.lt_add_of_pos_right (configurationRank_pos w m)
        · exact Nat.add_lt_add_left (ih (Nat.le_of_succ_le_succ hlen) hl hrest) _

end Sys2Proof.Machine
end

section
/-! Every step that does not end a Run raises the configuration (R109), and so every Run ends. -/

namespace Sys2Proof.Machine

variable {cfg : Config} {s t : State}

/-- The addresses in the first `n` slots, oldest first. Up to `sp` they are the pending ones (R36, R109). -/
def State.addressesTo (s : State) (n : Nat) : List Nat := (s.stack.toList.take n).map BitVec.toNat

theorem configuration_eq (s : State) : s.configuration = s.addressesTo s.sp.val ++ [s.pc.toNat] := rfl

theorem addressesTo_succ (k : Fin 16) : s.addressesTo (k.val + 1) = s.addressesTo k.val ++ [(s.slot k).toNat] := by
  have hlt : k.val < s.stack.toList.length := s.stack.length_toList.symm ▸ k.isLt
  simp only [State.addressesTo, List.take_succ_eq_append_getElem hlt, List.map_append, List.map_cons, List.map_nil,
    Vector.getElem_toList, State.slot]

theorem addressesTo_setSlot (k : Fin 16) (w : Word) : (s.setSlot k w).addressesTo k.val = s.addressesTo k.val := by
  simp only [State.addressesTo, setSlot_stack, Vector.toList_set, List.take_set_of_le le_rfl]

/-- An instruction that ends no Run, dispatched with `pc` past `a`, leaves a larger configuration than the one with
`a` for `pc`: CALL puts a larger number for `a`, RET takes a number off the end, ADD keeps `pc` past `a` (R109). -/
theorem exec_raises_configuration {i : Instr} {a : Nat} (ha : a < s.pc.toNat)
    (h : exec i s = .next t) (ht : t.runContinues) :
    configurationLt (s.addressesTo s.sp.val ++ [a]) t.configuration = true := by
  obtain ⟨hrunning, hok⟩ := ht
  cases i with
  | halt =>
    rw [exec_halt] at h
    cases h; exact absurd hrunning nofun
  | ret =>
    rcases exec_ret_cases h with ⟨-, rfl⟩ | ⟨hpos, rfl⟩
    · exact absurd hok nofun
    · have hsplit := addressesTo_succ (s := s) ⟨s.sp.val - 1, by omega⟩
      rw [Nat.sub_add_cancel hpos] at hsplit
      rw [hsplit]
      exact configurationLt_append_singleton a
  | call nnn =>
    rcases exec_call_cases h with ⟨-, rfl⟩ | ⟨hroom, rfl⟩
    · exact absurd hok nofun
    · have hpushed : (s.setSlot ⟨s.sp.val, hroom⟩ s.pc).addressesTo (s.sp.val + 1) =
          s.addressesTo s.sp.val ++ [s.pc.toNat] := by
        rw [addressesTo_succ ⟨s.sp.val, hroom⟩, addressesTo_setSlot, slot_setSlot_same]
      change configurationLt _ ((s.setSlot ⟨s.sp.val, hroom⟩ s.pc).addressesTo (s.sp.val + 1) ++ _) = true
      rw [hpushed, List.append_assoc]
      exact configurationLt_append_left (configurationLt_of_lt ha)
  | add x y =>
    rw [exec_add] at h
    cases h
    exact configurationLt_append_left (configurationLt_of_lt ha)

theorem stepWith_raises_configuration (hok : s.fault.kind = .none) (h : stepWith cfg s = .next t)
    (ht : t.runContinues) : configurationLt s.configuration t.configuration = true := by
  have hkept : t.fault.kind = .none := ht.2
  rcases stepWith_cases cfg s with ⟨hf, -⟩ | ⟨-, -, hstep⟩ | ⟨-, -, -, hstep⟩ | ⟨op, ⟨-, hread, -⟩, hstep⟩
  · exact absurd hok ((faulted_eq_true s).mp hf)
  · cases hstep.symm.trans h; exact absurd hkept nofun
  · cases hstep.symm.trans h; exact absurd hkept nofun
  · have hpc : s.pc.toNat < s.atDispatch.pc.toNat := by rw [atDispatch_pc_toNat_of_readWord hread]; omega
    cases hd : decodeWord op with
    | ok i =>
      rw [hstep, dispatch_of_decode hd] at h
      exact exec_raises_configuration (s := s.atDispatch) hpc h ht
    | error e =>
      rw [hstep, dispatch_of_error hd] at h
      cases h; exact absurd hkept nofun

/-- The configuration is at most 17 numbers of 16 bits. -/
theorem configuration_bounded (s : State) : s.configuration.length ≤ 17 ∧ ∀ a ∈ s.configuration, a < 65536 := by
  constructor
  · have hsp := s.sp.isLt
    simp only [State.configuration, List.length_append, List.length_map, List.length_take, List.length_singleton]
    omega
  · intro a ha
    simp only [State.configuration, List.mem_append, List.mem_map, List.mem_singleton] at ha
    rcases ha with ⟨w, -, rfl⟩ | rfl
    · exact w.isLt
    · exact s.pc.isLt

theorem exists_runEnds (h : ¬ s.runContinues) : ∃ r, s.runEnds r := by
  by_cases hok : s.fault.kind = .none
  · cases he : s.execState with
    | halted => exact ⟨.ok, .inr ⟨hok, he, rfl⟩⟩
    | running => exact absurd ⟨he, hok⟩ h
  · exact ⟨_, .inl ⟨hok, rfl⟩⟩

/-- The loop of Run answers: each step that does not end it raises the rank of the configuration, which has a bound. -/
theorem runLoop_responds (cfg : Config) {s : State} (hok : s.fault.kind = .none) :
    ∃ n t r, runLoop cfg n s = some (t, r) := by
  induction hrank : 65537 ^ 17 - configurationRank 17 s.configuration using Nat.strong_induction_on generalizing s with
  | _ d ih =>
    obtain ⟨u, hu⟩ := stepWith_next cfg s
    by_cases hgoes : u.runContinues
    · obtain ⟨hlen, hwords⟩ := configuration_bounded s
      obtain ⟨-, hwords'⟩ := configuration_bounded u
      have hlt := configurationRank_lt hlen hwords (stepWith_raises_configuration hok hu hgoes)
      have hle : configurationRank 17 u.configuration ≤ 65537 ^ 17 := configurationRank_le hwords'
      obtain ⟨n, t, r, h⟩ := ih _ (by rw [← hrank]; exact Nat.sub_lt_sub_left (hlt.trans_le hle) hlt) hgoes.2 rfl
      exact ⟨n + 1, t, r, (runLoop_succ_eq_some_iff hu).mpr (.inr ⟨hgoes, h⟩)⟩
    · obtain ⟨r, hend⟩ := exists_runEnds hgoes
      exact ⟨1, u, r, (runLoop_succ_eq_some_iff hu).mpr (.inl ⟨rfl, hend⟩)⟩

end Sys2Proof.Machine
end

section
namespace Sys2Proof.Proofs

open Sys2Proof.Machine

/-- Settles O46: past the fault gate a step that ends no Run dispatched a CALL, a RET or an ADD, with `pc` two
further on. -/
theorem stepRaisesTheConfiguration : Obligations.StepRaisesTheConfiguration := by
  unfold Obligations.StepRaisesTheConfiguration
  exact fun cfg s t hok h hkept hrunning => stepWith_raises_configuration hok h ⟨hrunning, hkept⟩

/-- Settles O45: a faulted core answers at once, and otherwise the configuration cannot rise for ever. -/
theorem everyRunResponds : Obligations.EveryRunResponds := by
  unfold Obligations.EveryRunResponds
  intro cfg s
  by_cases hok : s.fault.kind = .none
  · simp only [command_run_of_ok hok]
    exact runLoop_responds cfg (s := s.setExecState .running) hok
  · exact ⟨0, _, _, command_run_of_faulted hok⟩

end Sys2Proof.Proofs
end

section
/-! The assembler on the text of an instruction (R60): its line parses to the instruction, digit by digit. -/

namespace Sys2Proof.Machine

open Sys2Proof.Laws

/-- What the line of an instruction places. -/
def itemOf : Instr → SourceItem
  | .halt => .halt
  | .ret => .ret
  | .call nnn => .call (.address nnn.toNat)
  | .add x y => .add x.val y.val

theorem itemWord_itemOf (labels : List (List Char × Nat)) (i : Instr) :
    itemWord labels (itemOf i) = .ok (encode i) := by
  rw [← sourceWord_of_toInstr (toInstr_toSource i)]
  cases i <;> rfl

theorem assemble_of_parseLine {origin : Nat} {line : List Char} {i : Instr}
    (h : parseLine line = some { label := none, item := some (itemOf i) }) :
    assemble origin [line] = .ok [highByte (encode i), lowByte (encode i)] := by
  simp [assemble, parseLines, h, labelTable, linesBytes, itemWord_itemOf]

/-! ### Digits -/

@[simp] theorem regDigit_digitOfNibble (n : Nibble) : regDigit (digitOfNibble n) = some n.toNat := by
  revert n; decide

@[simp] theorem hexDigit_digitOfNibble (n : Nibble) : hexDigit (digitOfNibble n) = some n.toNat := by
  revert n; decide

@[simp] theorem isBlank_digitOfNibble (n : Nibble) : isBlank (digitOfNibble n) = false := by
  revert n; decide

/-- No digit is a mark of a line's structure. -/
theorem digitOfNibble_ne (n : Nibble) : digitOfNibble n ≠ ';' ∧ digitOfNibble n ≠ ':' ∧ digitOfNibble n ≠ ',' := by
  revert n; decide

@[simp] theorem registerName_digitOfNibble (n : Nibble) : registerName ['V', digitOfNibble n] = some n.toNat :=
  regDigit_digitOfNibble n

/-- Three digits, most significant first, are the address they spell. -/
theorem callOperand_digits (nnn : Addr12) :
    callOperand ['0', 'x', digitOfNibble (nnn.extractLsb' 8 4), digitOfNibble (nnn.extractLsb' 4 4),
      digitOfNibble (nnn.extractLsb' 0 4)] = some (.address nnn.toNat) := by
  have hvalue : 16 * (16 * (nnn.toNat >>> 8 % 16) + nnn.toNat >>> 4 % 16) + nnn.toNat % 16 = nnn.toNat := by
    have := nnn.isLt
    simp only [Nat.shiftRight_eq_div_pow]
    omega
  simp [callOperand, hexLiteral, hexDigits, hvalue]

theorem addOperands_digits (x y : RegIndex) :
    addOperands ['V', digitOfNibble (nibbleOfReg x), ',', ' ', 'V', digitOfNibble (nibbleOfReg y)] =
      some (x.val, y.val) := by
  have hcomma : digitOfNibble (nibbleOfReg x) ≠ ',' := (digitOfNibble_ne _).2.2
  simp [addOperands, splitAtChar, hcomma, isBlank, nibbleOfReg_toNat, List.dropWhile]

/-! ### Lines -/

theorem splitAtChar_of_not_mem {sep : Char} {t : List Char} (h : sep ∉ t) : splitAtChar sep t = none := by
  induction t with
  | nil => rfl
  | cons c t ih =>
    obtain ⟨hc, ht⟩ := List.ne_and_not_mem_of_not_mem_cons h
    simp only [splitAtChar, if_neg hc.symm, ih ht]

/-- A line with neither comment nor label is its item. -/
theorem parseLine_of_plain {t : List Char} (hcomment : ';' ∉ t) (hlabel : ':' ∉ t) :
    parseLine t = (lineItem t).map fun i => { label := none, item := i } := by
  have hcode : t.takeWhile (fun c => c != ';') = t :=
    List.takeWhile_eq_self_iff.mpr fun c hc => bne_iff_ne.mpr fun he => hcomment (he ▸ hc)
  simp only [parseLine, hcode, splitAtChar_of_not_mem hlabel]

theorem render_plain (i : Instr) : ';' ∉ render i ∧ ':' ∉ render i := by
  cases i with
  | halt => decide
  | ret => decide
  | call nnn => simp [render, (digitOfNibble_ne _).1.symm, (digitOfNibble_ne _).2.1.symm]
  | add x y => simp [render, (digitOfNibble_ne _).1.symm, (digitOfNibble_ne _).2.1.symm]

/-- Text that neither begins nor ends with a blank is its own trim. -/
theorem trimBlanks_of_ends {a b : Char} (ha : isBlank a = false) (hb : isBlank b = false) (t : List Char) :
    trimBlanks (a :: (t ++ [b])) = a :: (t ++ [b]) := by
  have hreverse : (a :: (t ++ [b])).reverse = b :: (t.reverse ++ [a]) := by simp
  rw [trimBlanks, List.dropWhile_cons_of_neg (by simp [ha]), hreverse, List.dropWhile_cons_of_neg (by simp [hb]),
    ← hreverse, List.reverse_reverse]

theorem trimBlanks_blank_cons (t : List Char) : trimBlanks (' ' :: t) = trimBlanks t := rfl

/-- A mnemonic, one blank, and operands that neither begin nor end with a blank. -/
theorem lineItem_mnemonic_operands {c a b : Char} {m t : List Char} (hc : isBlank c = false)
    (hm : ∀ k ∈ m, isBlank k = false) (ha : isBlank a = false) (hb : isBlank b = false) :
    lineItem (c :: m ++ ' ' :: a :: (t ++ [b])) = (sourceItem (c :: m) (a :: (t ++ [b]))).map some := by
  have hline : trimBlanks (c :: m ++ ' ' :: a :: (t ++ [b])) = c :: m ++ ' ' :: a :: (t ++ [b]) := by
    simpa using trimBlanks_of_ends hc hb (m ++ ' ' :: a :: t)
  have hmnemonic : ∀ k ∈ c :: m, (!isBlank k) = true := by simpa [hc] using hm
  simp only [lineItem, hline]
  rw [if_neg (by simp), List.takeWhile_append_of_pos hmnemonic, List.dropWhile_append_of_pos hmnemonic,
    List.takeWhile_cons_of_neg (by decide), List.dropWhile_cons_of_neg (by decide), List.append_nil,
    trimBlanks_blank_cons, trimBlanks_of_ends ha hb]

theorem lineItem_render (i : Instr) : lineItem (render i) = some (some (itemOf i)) := by
  cases i with
  | halt => decide
  | ret => decide
  | call nnn =>
    have hitem : sourceItem ['C', 'A', 'L', 'L'] ['0', 'x', digitOfNibble (nnn.extractLsb' 8 4),
        digitOfNibble (nnn.extractLsb' 4 4), digitOfNibble (nnn.extractLsb' 0 4)] = some (itemOf (.call nnn)) :=
      congrArg (Option.map SourceItem.call) (callOperand_digits nnn)
    exact (lineItem_mnemonic_operands (c := 'C') (m := ['A', 'L', 'L']) (a := '0')
      (t := ['x', digitOfNibble (nnn.extractLsb' 8 4), digitOfNibble (nnn.extractLsb' 4 4)]) (by decide)
      (by simp [isBlank]) (by decide) (isBlank_digitOfNibble (nnn.extractLsb' 0 4))).trans
      (congrArg (Option.map some) hitem)
  | add x y =>
    have hitem : sourceItem ['A', 'D', 'D'] ['V', digitOfNibble (nibbleOfReg x), ',', ' ', 'V',
        digitOfNibble (nibbleOfReg y)] = some (itemOf (.add x y)) :=
      congrArg (Option.map fun p : Nat × Nat => SourceItem.add p.1 p.2) (addOperands_digits x y)
    exact (lineItem_mnemonic_operands (c := 'A') (m := ['D', 'D']) (a := 'V')
      (t := [digitOfNibble (nibbleOfReg x), ',', ' ', 'V']) (by decide) (by simp [isBlank]) (by decide)
      (isBlank_digitOfNibble (nibbleOfReg y))).trans (congrArg (Option.map some) hitem)

theorem parseLine_render (i : Instr) : parseLine (render i) = some { label := none, item := some (itemOf i) } := by
  obtain ⟨hcomment, hlabel⟩ := render_plain i
  rw [parseLine_of_plain hcomment hlabel, lineItem_render]
  rfl

end Sys2Proof.Machine
end

section
namespace Sys2Proof.Proofs

open Sys2Proof.Machine

/-- Settles O58: the rendered line has no label and no comment, its blank parts mnemonic from operands, and its digits
are read back to the numbers they stand for. -/
theorem assembleOfRenderIsTheInstruction : Obligations.AssembleOfRenderIsTheInstruction := by
  unfold Obligations.AssembleOfRenderIsTheInstruction
  exact fun i origin => assemble_of_parseLine (parseLine_render i)

end Sys2Proof.Proofs
end
